-- ==== Sys2Proof/Word.lean ====
section
/-! DEFINITION. The word types of the CFS block (spec/00_scope.md section 6).
A byte is 8 bits; register values and images have 24 bits, channel field values 16. -/

namespace Sys2Proof

/-- A byte: the unit of the wire, of commands and of responses (00_scope.md section 6). -/
abbrev Byte := BitVec 8

end Sys2Proof
end

