-- ==== Sys2Proof/Config.lean ====
section
/-! DEFINITION. The parameters of the block (spec/00_scope.md R4) as one record, the bus events, and the free value
that stands for the device oracle (00_scope.md section 6, 93_implementation_defined.md I9). -/

namespace Sys2Proof

/-- A voltage range in millivolts (00_scope.md R4 P13, 43_scaler.md R105). -/
structure Range where
  vMin : Int
  vMax : Int
deriving DecidableEq, Repr

/-- The parameters P1 to P20 of 00_scope.md R4, fixed when the block is instantiated. -/
structure Config where
  /-- P1 `POLY`: only names the value the host is expected to give to `CRC.INIT`; no rule reads it. -/
  poly : Byte
  /-- P2 `CRC_SEED`. -/
  crcSeed : Byte
  /-- P3 `ADDR_MASK`. -/
  addrMask : Byte
  /-- P4 `READ_BIT`. -/
  readBit : Byte
  /-- P5 `ADDR_SPACE`. -/
  addrSpace : Nat
  /-- P6 `ADDR_MAX`. -/
  addrMax : Byte
  /-- P7 `T2_BASE`. -/
  t2Base : Byte
  /-- P8 `T3_BASE`. -/
  t3Base : Byte
  /-- P9 `SEC_BASE`. -/
  secBase : Byte
  /-- P10 `DAC16_MASK`. -/
  dac16Mask : BitVec 16
  /-- P11 `TX_FILL`. -/
  txFill : Byte
  /-- P12 `N_CH`. -/
  nCh : Nat
  /-- P13 `RANGE_TABLE`; its length is `N_RANGES`. -/
  rangeTable : List Range
  /-- P14 `RANGE_CUSTOM`. -/
  rangeCustom : Byte
  /-- P15 `GAIN_TABLE`. -/
  gainTable : List Int
  /-- P16 `VREF_MV`. -/
  vrefMv : Int
  /-- P17 `K_MILLI`. -/
  kMilli : Int
  /-- P18 `MAX_LEN`. -/
  maxLen : Nat
  /-- P19 `CODE_SPAN`. -/
  codeSpan : Int
  /-- P20 `MICRO`. -/
  micro : Int
deriving DecidableEq, Repr

/-- `N_RANGES` (00_scope.md R4 P13). -/
def Config.nRanges (c : Config) : Nat := c.rangeTable.length

/-- The constraints that 00_scope.md R4 puts on the record: the types' ranges in its table and the list
"Constraints a model must check on its configuration record" under it. They let `CODE_SPAN = 0`, `MICRO = 0` (log 21) and
an empty `RANGE_TABLE` (log 22) pass. -/
def Config.wf (c : Config) : Bool :=
  (List.range 8).any (fun k => c.readBit == 1#8 <<< k) &&
  c.readBit &&& c.addrMask == 0#8 &&
  decide (1 ≤ c.addrSpace) && decide (c.addrSpace ≤ 256) &&
  decide (c.t2Base.toNat ≤ c.t3Base.toNat) && decide (c.t3Base.toNat ≤ c.addrMax.toNat + 1) &&
  (List.range 16).any (fun k => c.dac16Mask == 0xFFFF#16 <<< k) &&
  decide (1 ≤ c.nCh) &&
  c.rangeTable.all (fun r => decide (r.vMin < r.vMax) && decide (-2147483648 ≤ r.vMin) && decide (r.vMax ≤ 2147483647)) &&
  decide (c.nRanges ≤ c.rangeCustom.toNat) && decide (c.nRanges ≤ 255) &&
  c.gainTable.length == 4 &&
  decide (1 ≤ c.maxLen) && decide (c.maxLen ≤ 255)

/-- The parameters for which the source itself prints values hold them: P15 to P17, P19 and P20
(00_scope.md R4; 93_implementation_defined.md I8 lets a model fix them). -/
def Config.sourceValues (c : Config) : Bool :=
  c.gainTable == [1000, 500, 250, 125] && c.vrefMv == 2500 && c.kMilli == 2575 &&
  c.codeSpan == 65536 && c.micro == 1000000

/-- The default values of 00_scope.md R4 and 43_scaler.md R109. PRESUMED where R4 marks them as general knowledge
(P1, P3, P4, P6 to P10, P13) and DESIGN CHOICE where R4 cites a decision; unsafe as values, see log 1. -/
def Config.default : Config where
  poly := 0x07#8
  crcSeed := 0xA5#8
  addrMask := 0x7F#8
  readBit := 0x80#8
  addrSpace := 128
  addrMax := 0x4B#8
  t2Base := 0x29#8
  t3Base := 0x38#8
  secBase := 0x28#8
  dac16Mask := 0xFFF0#16
  txFill := 0x00#8
  nCh := 2
  rangeTable := [⟨0, 2500⟩, ⟨0, 5000⟩, ⟨0, 10000⟩, ⟨-5000, 5000⟩, ⟨-10000, 10000⟩]
  rangeCustom := 0xFF#8
  gainTable := [1000, 500, 250, 125]
  vrefMv := 2500
  kMilli := 2575
  maxLen := 255
  codeSpan := 65536
  micro := 1000000

/-- What the device can observe on the bus, in order (20_memory.md R38: every `SpiSeg` is an observable event). -/
inductive BusEvent where
  /-- `SpiSeg(tx, release) -> rx` (00_scope.md section 6). -/
  | seg (tx rx : List Byte) (release : Bool)
  /-- Chip select deasserted with no byte sent (41_framer.md R84 item 2). -/
  | csRelease
deriving DecidableEq, Repr

/-- The device oracle's free value: byte `j` of its answer to the segment `(tx, release)` after the bus history
`past`, where the state's `devRx` gives no byte. No body: nothing can be proved of its value
(93_implementation_defined.md I9, "any value"). Log 2; safe. -/
opaque Config.deviceByte (past : List BusEvent) (tx : List Byte) (release : Bool) (j : Nat) : Byte

end Sys2Proof
end

