-- ==== Sys2Proof/Machine/Bytes.lean ====
section
/-! DEFINITION. Byte sequences: `be_N`, `unbe`, the signed two's-complement form, slices
(spec/00_scope.md section 6, 20_memory.md R34, 30_encoding.md R52). -/

namespace Sys2Proof.Machine

/-- `be_N(v)`: the `N` bytes of `v`, most significant first (00_scope.md section 6; R34). -/
def beBytes : Nat → Nat → List Byte
  | 0, _ => []
  | n + 1, v => BitVec.ofNat 8 (v / 256 ^ n) :: beBytes n v

/-- `unbe(s)`, the inverse of `be_N` (00_scope.md section 6). -/
def unbe (s : List Byte) : Nat := s.foldl (fun acc b => acc * 256 + b.toNat) 0

/-- A signed result field of `n` bytes: two's complement, big-endian (30_encoding.md R52). -/
def beSigned (n : Nat) (z : Int) : List Byte := beBytes n (z % (256 ^ n : Nat)).toNat

/-- `s[i .. i+w)` (00_scope.md section 6). -/
def slice (s : List Byte) (i w : Nat) : List Byte := (s.drop i).take w

/-- The result of the scaler's read-outs: `int` as 8 signed bytes, `frac` as 4 (43_scaler.md R118). -/
def pairBytes (int frac : Int) : List Byte := beSigned 8 int ++ beSigned 4 frac

end Sys2Proof.Machine
end

