-- ==== Sys2Proof/Syntax.lean ====
section
/-! DEFINITION. The instructions: the thirteen host commands of spec/30_encoding.md R53 and the two wire
instruction-byte forms of R46, one constructor per row of spec/opcode_table.json.
The operand `n` of `CRC.CALC` and `XFER.WR` is the length of `data` (R52: any other length is refused). -/

namespace Sys2Proof

inductive Instr where
  /-- `CRC.INIT poly` (40_crc.md R64). -/
  | crcInit (poly : Byte)
  /-- `CRC.CALC seed, n, data` (R65). -/
  | crcCalc (seed : Byte) (data : List Byte)
  /-- `XFER.WR addr, n, data` (41_framer.md R71). -/
  | xferWr (addr : Byte) (data : List Byte)
  /-- `XFER.RD addr, n` (R72). -/
  | xferRd (addr n : Byte)
  /-- `REG.WR addr, value` (R87). -/
  | regWr (addr : Byte) (value : BitVec 24)
  /-- `REG.RD addr` (R88). -/
  | regRd (addr : Byte)
  /-- `CSR.WR csr, value` (42_control.md R97). -/
  | csrWr (csr value : Byte)
  /-- `CSR.RD csr` (R98). -/
  | csrRd (csr : Byte)
  /-- `CH.WR ch, field, value` (43_scaler.md R106). -/
  | chWr (ch field : Byte) (value : BitVec 16)
  /-- `CH.RD ch, field` (R107). -/
  | chRd (ch field : Byte)
  /-- `SC.SCALE ch` (R118). -/
  | scScale (ch : Byte)
  /-- `SC.OFFSET ch` (R119). -/
  | scOffset (ch : Byte)
  /-- `SC.CONV ch, image` (R120). -/
  | scConv (ch : Byte) (image : BitVec 24)
  /-- The wire instruction byte of a write at `addr` (30_encoding.md R46). -/
  | wireWr (addr : Byte)
  /-- The wire instruction byte of a read at `addr` (R46). -/
  | wireRd (addr : Byte)
deriving DecidableEq, Repr

/-- The instruction is a host command of R53 (and not a wire instruction byte). -/
def Instr.isCommand : Instr → Bool
  | .wireWr _ => false
  | .wireRd _ => false
  | .crcInit _ | .crcCalc _ _ | .xferWr _ _ | .xferRd _ _ | .regWr _ _ | .regRd _ | .csrWr _ _ | .csrRd _
  | .chWr _ _ _ | .chRd _ _ | .scScale _ | .scOffset _ | .scConv _ _ => true

end Sys2Proof
end

