-- ==== Sys2Proof/Decode.lean ====
section
/-! DEFINITION. Decoding of host commands (spec/30_encoding.md R52 to R54) and of wire instruction bytes (R46), and the
encoder, both from the opcode map R53. -/

namespace Sys2Proof

/-- The thirteen opcodes of R53. -/
inductive Opcode where
  | crcInit | crcCalc | xferWr | xferRd | regWr | regRd | csrWr | csrRd | chWr | chRd | scScale | scOffset | scConv
deriving DecidableEq, Repr

/-- The opcode byte (R53). -/
def Opcode.byte : Opcode → Byte
  | .crcInit => 0x01#8
  | .crcCalc => 0x02#8
  | .xferWr => 0x10#8
  | .xferRd => 0x11#8
  | .regWr => 0x12#8
  | .regRd => 0x13#8
  | .csrWr => 0x20#8
  | .csrRd => 0x21#8
  | .chWr => 0x30#8
  | .chRd => 0x31#8
  | .scScale => 0x32#8
  | .scOffset => 0x33#8
  | .scConv => 0x34#8

/-- The opcode an opcode byte stands for; every other byte is reserved (R54). -/
def Opcode.ofByte (b : Byte) : Option Opcode :=
  match b.toNat with
  | 0x01 => some .crcInit
  | 0x02 => some .crcCalc
  | 0x10 => some .xferWr
  | 0x11 => some .xferRd
  | 0x12 => some .regWr
  | 0x13 => some .regRd
  | 0x20 => some .csrWr
  | 0x21 => some .csrRd
  | 0x30 => some .chWr
  | 0x31 => some .chRd
  | 0x32 => some .scScale
  | 0x33 => some .scOffset
  | 0x34 => some .scConv
  | _ => none

/-- How many bytes follow the opcode byte (R53), where `n` is the value of the third byte of the command. -/
def Opcode.operandLength (n : Nat) : Opcode → Nat
  | .crcInit => 1
  | .crcCalc => 2 + n
  | .xferWr => 2 + n
  | .xferRd => 2
  | .regWr => 4
  | .regRd => 1
  | .csrWr => 2
  | .csrRd => 1
  | .chWr => 4
  | .chRd => 2
  | .scScale => 1
  | .scOffset => 1
  | .scConv => 4

/-- Why a byte sequence is no command. Each is answered with a status (R52, R54, 60_exceptions.md R138 items 1 to 3). -/
inductive Reject where
  /-- No opcode byte. -/
  | empty
  /-- The opcode byte is not in R53. -/
  | reservedOpcode (op : Byte)
  /-- The length is not the one the opcode and the field `n` require. -/
  | wrongLength (op : Byte)
deriving DecidableEq, Repr

/-- What the decoder answers. -/
inductive Decoded where
  | instr (i : Instr)
  | rejected (r : Reject)
deriving DecidableEq, Repr

/-- The instruction of an opcode and its operand bytes (R53); `none` where the length is wrong (R52). -/
def decodeOperands : Opcode → List Byte → Option Instr
  | .crcInit, [poly] => some (.crcInit poly)
  | .crcCalc, seed :: n :: data => if data.length = n.toNat then some (.crcCalc seed data) else none
  | .xferWr, addr :: n :: data => if data.length = n.toNat then some (.xferWr addr data) else none
  | .xferRd, [addr, n] => some (.xferRd addr n)
  | .regWr, [addr, v2, v1, v0] => some (.regWr addr (BitVec.ofNat 24 (Machine.unbe [v2, v1, v0])))
  | .regRd, [addr] => some (.regRd addr)
  | .csrWr, [csr, value] => some (.csrWr csr value)
  | .csrRd, [csr] => some (.csrRd csr)
  | .chWr, [ch, field, v1, v0] => some (.chWr ch field (BitVec.ofNat 16 (Machine.unbe [v1, v0])))
  | .chRd, [ch, field] => some (.chRd ch field)
  | .scScale, [ch] => some (.scScale ch)
  | .scOffset, [ch] => some (.scOffset ch)
  | .scConv, [ch, v2, v1, v0] => some (.scConv ch (BitVec.ofNat 24 (Machine.unbe [v2, v1, v0])))
  | _, _ => none

/-- The command decoder, total on byte sequences, its checks in the order of 60_exceptions.md R138 items 1 to 3. -/
def decode : List Byte → Decoded
  | [] => .rejected .empty
  | op :: operands =>
    match Opcode.ofByte op with
    | none => .rejected (.reservedOpcode op)
    | some o =>
      match decodeOperands o operands with
      | none => .rejected (.wrongLength op)
      | some i => .instr i

/-- The wire form of an instruction byte (R46, read from the receiving end): no value is reserved (R51); bits outside
`ADDR_MASK` and `READ_BIT`, which the block never sends, are dropped. -/
def decodeWire (c : Config) (b : Byte) : Instr :=
  if b &&& c.readBit = 0#8 then .wireWr (b &&& c.addrMask) else .wireRd (b &&& c.addrMask)

/-- The instruction byte of a transfer (R46): `(addr & ADDR_MASK) | (READ_BIT if rd = 1 else 0)`. -/
def instrByte (c : Config) (addr : Byte) (rd : Bool) : Byte :=
  (addr &&& c.addrMask) ||| (if rd then c.readBit else 0#8)

/-- The bytes of an instruction (R53, R52 big-endian; R46 for the wire forms). -/
def encode (c : Config) : Instr → List Byte
  | .crcInit poly => [Opcode.crcInit.byte, poly]
  | .crcCalc seed data => Opcode.crcCalc.byte :: seed :: BitVec.ofNat 8 data.length :: data
  | .xferWr addr data => Opcode.xferWr.byte :: addr :: BitVec.ofNat 8 data.length :: data
  | .xferRd addr n => [Opcode.xferRd.byte, addr, n]
  | .regWr addr value => Opcode.regWr.byte :: addr :: Machine.beBytes 3 value.toNat
  | .regRd addr => [Opcode.regRd.byte, addr]
  | .csrWr csr value => [Opcode.csrWr.byte, csr, value]
  | .csrRd csr => [Opcode.csrRd.byte, csr]
  | .chWr ch field value => Opcode.chWr.byte :: ch :: field :: Machine.beBytes 2 value.toNat
  | .chRd ch field => [Opcode.chRd.byte, ch, field]
  | .scScale ch => [Opcode.scScale.byte, ch]
  | .scOffset ch => [Opcode.scOffset.byte, ch]
  | .scConv ch image => Opcode.scConv.byte :: ch :: Machine.beBytes 3 image.toNat
  | .wireWr addr => [instrByte c addr false]
  | .wireRd addr => [instrByte c addr true]

/-- Byte `j` of an instruction whose low `nbits` bits are `w` and whose other bits are 0: byte `j` is bits
`8j+7 .. 8j`, and the byte at the lowest place goes first (R52: `[op] ++ operands`). -/
def tableByte (nbits w j : Nat) : Byte := BitVec.ofNat 8 (w % 2 ^ nbits / 256 ^ j)

/-- The whole command that the table word stands for: as long as its opcode requires (R53), or as long as the word
itself if that is longer. -/
def tableBytes (o : Opcode) (nbits w : Nat) : List Byte :=
  (List.range (max (1 + o.operandLength (tableByte nbits w 2).toNat) ((nbits + 7) / 8))).map (tableByte nbits w)

/-- The instruction the decoder of a block with the parameters `c` reads from a word of spec/opcode_table.json. A word
whose first byte is a host opcode is a host command; a one-byte word that no host command begins with is read as a wire
instruction byte under the block's masks (DESIGN CHOICE, log 6: the two levels of encoding of R45 overlap). -/
def decodeTableWordOf (c : Config) (nbits w : Nat) : Option Instr :=
  match Opcode.ofByte (tableByte nbits w 0) with
  | some o =>
    match decode (tableBytes o nbits w) with
    | .instr i => some i
    | .rejected _ => none
  | none => if nbits ≤ 8 then some (decodeWire c (tableByte nbits w 0)) else none

/-- `decodeTableWordOf` with the default parameters, under which the table's bit patterns of the wire forms are written.
It serves to ask about the table's rows only, a test in the sense of 00_scope.md R4; nothing in a step uses it (log 1). -/
def decodeTableWord (nbits w : Nat) : Option Instr := decodeTableWordOf Config.default nbits w

end Sys2Proof
end

