-- ==== Sys2Proof/Machine/Channel.lean ====
section
/-! DEFINITION. One scaler channel as data (spec/10_state.md R21, R22). -/

namespace Sys2Proof.Machine

/-- The four derived numbers of a channel (10_state.md R22), exact integers (43_scaler.md, "nothing wraps"; log 8). -/
structure Derived where
  scaleInt : Int
  scaleFrac : Int
  offsetInt : Int
  offsetFrac : Int
deriving DecidableEq, Repr

/-- Channel state: the eight input fields of R21 at the widths it gives, and the derived numbers of R22.
`derived = none` is `SC_VALID = 0`, in which "the four numbers hold no value" (R22; log 7). -/
structure Channel where
  fast : BitVec 1
  range : BitVec 8
  override : BitVec 1
  rfb : BitVec 16
  gainP : BitVec 2
  gainN : BitVec 2
  goff : BitVec 16
  gpol : BitVec 1
  derived : Option Derived
deriving DecidableEq, Repr

/-- All input fields 0 (R26) and nothing derived yet. -/
def Channel.zero : Channel where
  fast := 0
  range := 0
  override := 0
  rfb := 0
  gainP := 0
  gainN := 0
  goff := 0
  gpol := 0
  derived := none

end Sys2Proof.Machine
end

