-- ==== Sys2Proof/Machine/Scale.lean ====
section
/-! DEFINITION. The scaler's computation (spec/43_scaler.md R105 to R117, R120), on mathematical integers.
`tdiv`, `trem`, `emod` of 00_scope.md section 6 are `Int.tdiv`, `Int.tmod`, `Int.emod`. -/

namespace Sys2Proof.Machine

/-- `GAIN_TABLE[g]` (R110). A table with too few entries, which `Config.wf` excludes, gives 0 (log 15). -/
def gainFactor (c : Config) (g : BitVec 2) : Int := c.gainTable.getD g.toNat 0

/-- The signed offset of R111: `GPOL = 1` means negative. -/
def signedOffset (ch : Channel) : Int := if ch.gpol = 1#1 then -(ch.goff.toNat : Int) else ch.goff.toNat

/-- The custom range (R111): `v_max` uses `GAIN_N` and `v_min` uses `GAIN_P`. -/
def customRange (c : Config) (ch : Channel) : Range where
  vMax := c.vrefMv +
    Int.tdiv ((1024 * gainFactor c ch.gainN + 1000 * signedOffset ch) * c.kMilli * ch.rfb.toNat) (1024 * 1000 * 1000)
  vMin := c.vrefMv -
    Int.tdiv ((1024 * gainFactor c ch.gainP - 1000 * signedOffset ch) * c.kMilli * ch.rfb.toNat) (1024 * 1000 * 1000)

/-- Source selection (R108): `OVERRIDE` alone selects; the custom marker without it gives no range. R108 and R26 give no
case for a `RANGE` that is neither below `N_RANGES` nor `RANGE_CUSTOM`, which only an empty `RANGE_TABLE` brings about, at
reset; it is taken as no range (DESIGN CHOICE, log 22; unsafe). -/
def rangeOf (c : Config) (ch : Channel) : Option Range :=
  if ch.override = 1#1 then some (customRange c ch) else c.rangeTable[ch.range.toNat]?

/-- `span` (R112). -/
def Range.span (r : Range) : Int := r.vMax - r.vMin

/-- The numbers of R114 for a range: the scale's fraction rounded to nearest, half up, the offset's truncated (R123).
`tdiv` by 0, which 00_scope.md section 6 leaves out and which `CODE_SPAN = 0` brings about, is 0, and `CODE_SPAN/2` is
truncated (DESIGN CHOICE, log 21; unsafe). -/
def derivedOf (c : Config) (r : Range) : Derived where
  scaleInt := Int.tdiv (Range.span r) c.codeSpan
  scaleFrac := Int.tdiv (Int.tmod (Range.span r) c.codeSpan * c.micro + Int.tdiv c.codeSpan 2) c.codeSpan
  offsetInt := Int.tdiv (r.vMin * c.codeSpan) (Range.span r)
  offsetFrac := Int.tdiv (Int.tmod (r.vMin * c.codeSpan) (Range.span r) * c.micro) (Range.span r)

/-- What R114 computes from the current inputs; `none` where there is no result (R113). -/
def deriveChannel (c : Config) (ch : Channel) : Option Derived :=
  match rangeOf c ch with
  | none => none
  | some r => if Range.span r ≤ 0 then none else some (derivedOf c r)

/-- `recompute(c)` (R114). -/
def Channel.recompute (c : Config) (ch : Channel) : Channel := { ch with derived := deriveChannel c ch }

/-- A channel right after reset: inputs 0 and the recomputation run (10_state.md R26, R115). -/
def Channel.atReset (c : Config) : Channel := Channel.zero.recompute c

/-- The 16-bit code of an image (R116). -/
def codeOfImage (c : Config) (ch : Channel) (image : BitVec 24) : BitVec 16 :=
  if ch.fast = 1#1 then image.setWidth 16 &&& c.dac16Mask else image.extractLsb' 8 16

/-- The value in micro-millivolts of a code (R120: `S`, `O`, `P`, `m`). With `MICRO = 0` the division gives 0 (DESIGN
CHOICE, log 21; unsafe). -/
def convertCode (c : Config) (d : Derived) (code : BitVec 16) : Int :=
  Int.tdiv (((code.toNat : Int) * c.micro + (d.offsetInt * c.micro + d.offsetFrac)) *
    (d.scaleInt * c.micro + d.scaleFrac)) c.micro

end Sys2Proof.Machine
end

