-- ==== Sys2Proof/Machine/State.lean ====
section
/-! DEFINITION. The state of the CFS block as plain data (spec/10_state.md R10 to R27), the statuses (60_exceptions.md
R130), and the state after reset (R26, 70_reset_and_hazards.md R145). -/

namespace Sys2Proof.Machine

/-- The statuses a command ends with (R130). -/
inductive Status where
  | ok
  | invalidArgument
  /-- Kept for the host's status space; never raised by the block (R136). -/
  | noDevice
  /-- Never raised (R136). -/
  | noMemory
  /-- Never raised (R136). -/
  | ioTimeout
  | badMessage
  | unsupported
  | notReady
deriving DecidableEq, Repr

/-- A response `[status] ++ result` (30_encoding.md R52). -/
structure Response where
  status : Status
  result : List Byte
deriving DecidableEq, Repr

/-- What the outside gives the block next. -/
inductive Input where
  /-- The host issues a command (00_scope.md R5, 30_encoding.md R52). -/
  | command (bytes : List Byte)
  /-- The hardware reset event (70_reset_and_hazards.md R145). -/
  | reset
deriving DecidableEq, Repr

/-- The CRC engine's state once a table is built (10_state.md R13, R14): `POLYR` and `TABLE`. -/
structure CrcTable where
  poly : Byte
  table : Vector Byte 256
deriving DecidableEq, Repr

/-- The state. `crc = none` is `TABLE_VALID = 0`, in which `TABLE` and `POLYR` hold no value (R14; log 7).
The last five fields are the model's own: the parameters (log 1) and what lies outside the block, namely the
host's inputs (log 3), the device's answers (log 2), the bus trace and the responses given (log 4). -/
structure State where
  /-- `TABLE`, `POLYR` and `TABLE_VALID` (R13, R14). -/
  crc : Option CrcTable
  /-- `CTRL.CRC_EN` (R15). -/
  crcEn : Bool
  /-- `SPICFG.ADDR_ASC` (R16). -/
  addrAsc : Bool
  /-- `SPICFG.SINGLE_INSTR` (R16): stored only. -/
  singleInstr : Bool
  /-- `SPICFG.STREAM_KEEP` (R16): stored only. -/
  streamKeep : Bool
  /-- `STREAMLEN.STREAM_LEN` (R17). -/
  streamLen : Byte
  /-- The channels, number 0 first (R21, R22). -/
  ch : List Channel
  /-- `CS_ACTIVE` (R24). -/
  csActive : Bool
  /-- The parameters (00_scope.md R4); no step changes them. -/
  cfg : Config
  /-- What the host gives next, first first. -/
  inputs : List Input
  /-- What the device answers next, first byte first. -/
  devRx : List Byte
  /-- Everything that happened on the bus, oldest first. -/
  bus : List BusEvent
  /-- The responses given, oldest first. -/
  responses : List Response
deriving DecidableEq, Repr

/-- The block has no machine fault: "a non-`OK` status is a result value, not a machine fault: the hardware continues"
(60_exceptions.md R140). So there is no constructor (log 18; safe: nothing stops). -/
inductive Fault where
deriving DecidableEq, Repr

/-- Reasons not to give an instruction a meaning. -/
inductive Refusal where
  /-- Raised only by an arm of `exec` whose instruction has no meaning yet; safe, the machine stops. No arm is left so. -/
  | notModelled (mnemonic : String)
deriving DecidableEq, Repr

/-- The outcomes of a step of this machine. -/
abbrev Outcome := Host.Outcome State Fault Refusal

/-- The state after reset of a block with the parameters `c` (10_state.md R26; R145, R146), with nothing issued, no
device answers set and nothing recorded. -/
def State.resetOf (c : Config) : State where
  crc := none
  crcEn := false
  addrAsc := false
  singleInstr := false
  streamKeep := false
  streamLen := 0#8
  ch := List.replicate c.nCh (Channel.atReset c)
  csActive := false
  cfg := c
  inputs := []
  devRx := []
  bus := []
  responses := []

/-- `State.resetOf` with the default parameters of 00_scope.md R4: the host's form of a machine has one state after reset
and no parameters, and runs and tests begin at it (log 1). -/
def State.reset : State := State.resetOf Config.default

end Sys2Proof.Machine
end

