-- ==== Sys2Proof/Machine/Flags.lean ====
section
/-! DEFINITION. The block has no condition codes (spec/10_state.md R12). Its two validity bits, and the response codes. -/

namespace Sys2Proof.Machine

/-- `TABLE_VALID` (R14, R18). -/
def State.tableValid (s : State) : Bool := s.crc.isSome

/-- `SC_VALID` (R22). -/
def Channel.scValid (ch : Channel) : Bool := ch.derived.isSome

/-- The response code of a status (60_exceptions.md R130). -/
def Status.code : Status → Byte
  | .ok => 0x00#8
  | .invalidArgument => 0x01#8
  | .noDevice => 0x02#8
  | .noMemory => 0x03#8
  | .ioTimeout => 0x04#8
  | .badMessage => 0x05#8
  | .unsupported => 0x06#8
  | .notReady => 0x07#8

/-- The bytes of a response (30_encoding.md R52). -/
def Response.bytes (r : Response) : List Byte := r.status.code :: r.result

/-- A one-bit flag as a byte, bit 0. -/
def flagByte (b : Bool) : Byte := if b then 1#8 else 0#8

end Sys2Proof.Machine
end

