-- ==== Sys2Proof/Machine/Plan.lean ====
section
/-! DEFINITION. Register widths (spec/20_memory.md R32) and the chunk plan of a CRC-secured transfer with its
validation (41_framer.md R76, R77). -/

namespace Sys2Proof.Machine

/-- `reglen(a)` (R32). -/
def reglen (c : Config) (a : Byte) : Nat :=
  if a.toNat > c.addrMax.toNat then 0
  else if c.t3Base.toNat ≤ a.toNat then 3
  else if c.t2Base.toNat ≤ a.toNat then 2
  else 1

/-- One chunk `(k, a, w, i)` of a plan (R76). -/
structure Chunk where
  /-- The chunk number `k`. -/
  index : Nat
  /-- The effective register address `a`. -/
  addr : Byte
  /-- The register's width `w` in bytes. -/
  width : Nat
  /-- The buffer offset `i`. -/
  offset : Nat
deriving DecidableEq, Repr

/-- The effective address (R76): the increment wrapped by `trem` in stream mode, the sum modulo `ADDR_SPACE`. -/
def effAddr (c : Config) (streamLen addr : Byte) (inc : Int) : Byte :=
  BitVec.ofNat 8
    (Int.emod (addr.toNat + if streamLen = 0#8 then inc else Int.tmod inc streamLen.toNat) c.addrSpace).toNat

/-- `+1` ascending, `-1` descending (R76). -/
def addrSign (asc : Bool) : Int := if asc then 1 else -1

/-- The loop of R76 with the validation of R77: `none` is `InvalidArgument`. `fuel` bounds the iterations; `n` are
enough because every accepted width is at least 1 (R76). -/
def planFrom (c : Config) (asc : Bool) (streamLen addr : Byte) (n : Nat) :
    (fuel k i : Nat) → (inc : Int) → Option (List Chunk)
  | 0, _, i, _ => if i < n then none else some []
  | fuel + 1, k, i, inc =>
    if i < n then
      let a := effAddr c streamLen addr inc
      let w := reglen c a
      if w = 0 then none
      else if n < i + w then none
      else (planFrom c asc streamLen addr n fuel (k + 1) (i + w) (inc + addrSign asc * w)).map (⟨k, a, w, i⟩ :: ·)
    else some []

/-- The validated chunk plan of a transfer of `n` bytes from `addr` (R76, R77). -/
def chunkPlan (c : Config) (asc : Bool) (streamLen addr : Byte) (n : Nat) : Option (List Chunk) :=
  planFrom c asc streamLen addr n n 0 0 0

end Sys2Proof.Machine
end

