-- ==== Sys2Proof/Machine/Operands.lean ====
section
/-! DEFINITION. What the operands of a command name and which values are legal: CSR numbers (spec/42_control.md R95,
R96), channel fields (10_state.md R21, 43_scaler.md R106), register values (41_framer.md R86 to R88). -/

namespace Sys2Proof.Machine

/-- How a computation inside a command ends: `return OK(data)` or `raise <Status>` (00_scope.md section 6). -/
inductive Ending where
  | ok (data : List Byte)
  | raise (st : Status)
deriving DecidableEq, Repr

/-- The control registers (R95). -/
inductive Csr where
  | ctrl | spicfg | streamlen | status | polyr
deriving DecidableEq, Repr

/-- The CSR a number names; numbers above 0x04 name none (R19). -/
def Csr.ofByte (b : Byte) : Option Csr :=
  match b.toNat with
  | 0 => some .ctrl
  | 1 => some .spicfg
  | 2 => some .streamlen
  | 3 => some .status
  | 4 => some .polyr
  | _ => none

/-- The channel fields (R21, R22). -/
inductive ChField where
  | fast | range | override | rfb | gainP | gainN | goff | gpol | valid
deriving DecidableEq, Repr

/-- The field a number names; numbers above 8 name none (R106). -/
def ChField.ofByte (b : Byte) : Option ChField :=
  match b.toNat with
  | 0 => some .fast
  | 1 => some .range
  | 2 => some .override
  | 3 => some .rfb
  | 4 => some .gainP
  | 5 => some .gainN
  | 6 => some .goff
  | 7 => some .gpol
  | 8 => some .valid
  | _ => none

/-- `legal(field, value)` (R106, from R21). -/
def legalValue (c : Config) (f : ChField) (v : BitVec 16) : Bool :=
  match f with
  | .fast | .override | .gpol => decide (v.toNat ≤ 1)
  | .range => decide (v.toNat < c.nRanges) || decide (v.toNat = c.rangeCustom.toNat)
  | .gainP | .gainN => decide (v.toNat ≤ 3)
  | .rfb | .goff => true
  | .valid => false

/-- The value of a field, zero-extended to its 16-bit slot (R21, R107); field 8 is `SC_VALID`. -/
def Channel.getField (ch : Channel) : ChField → BitVec 16
  | .fast => ch.fast.setWidth 16
  | .range => ch.range.setWidth 16
  | .override => ch.override.setWidth 16
  | .rfb => ch.rfb
  | .gainP => ch.gainP.setWidth 16
  | .gainN => ch.gainN.setWidth 16
  | .goff => ch.goff
  | .gpol => ch.gpol.setWidth 16
  | .valid => if ch.scValid then 1#16 else 0#16

/-- `ch[c].<field> <- value` for a legal value of an input field (R106); field 8 is read-only. -/
def Channel.setField (ch : Channel) (v : BitVec 16) : ChField → Channel
  | .fast => { ch with fast := v.setWidth 1 }
  | .range => { ch with range := v.setWidth 8 }
  | .override => { ch with override := v.setWidth 1 }
  | .rfb => { ch with rfb := v }
  | .gainP => { ch with gainP := v.setWidth 2 }
  | .gainN => { ch with gainN := v.setWidth 2 }
  | .goff => { ch with goff := v }
  | .gpol => { ch with gpol := v.setWidth 1 }
  | .valid => ch

/-- The fields whose write runs the recomputation: 1 to 7 (R106, R115). -/
def ChField.triggers : ChField → Bool
  | .fast => false
  | .range | .override | .rfb | .gainP | .gainN | .goff | .gpol => true
  | .valid => false

/-- What an accepted `CH.WR` makes of a channel (R106): the field, then the recomputation where it is a trigger. -/
def Channel.write (c : Config) (ch : Channel) (f : ChField) (v : BitVec 16) : Channel :=
  if f.triggers then (ch.setField v f).recompute c else ch.setField v f

/-- The mask of the 2-byte registers applied to a register value of width `w` (R87, R88). -/
def dacMask (c : Config) (w v : Nat) : Nat := if w = 2 then v &&& c.dac16Mask.toNat else v

/-- The value `REG.WR` sends in a register of width `w` (R87): masked when `w = 2`, low `8w` bits kept. -/
def regWriteValue (c : Config) (w : Nat) (value : BitVec 24) : Nat := dacMask c w value.toNat % 2 ^ (8 * w)

/-- The value `REG.RD` makes of the bytes of a register of width `w` (R88). -/
def regReadValue (c : Config) (w : Nat) (bytes : List Byte) : Nat := dacMask c w (unbe bytes)

/-- The register checks of R86 fail. -/
def regRefused (c : Config) (asc : Bool) (addr : Byte) : Bool :=
  decide (reglen c addr = 0) || (decide (c.secBase.toNat ≤ addr.toNat) && asc)

end Sys2Proof.Machine
end

