-- ==== Sys2Proof/Machine/Table.lean ====
section
/-! DEFINITION. The CRC engine's functions (spec/40_crc.md R60 to R62). -/

namespace Sys2Proof.Machine

/-- One shift step of R60: `((r << 1) & 0xFF) ^ (p if r[7] = 1 else 0)`. -/
def crcStep (p r : Byte) : Byte := (r <<< 1) ^^^ (if r.getLsbD 7 then p else 0#8)

/-- `tblgen(p)[b] = step^8(b)` (R60). -/
def tblEntry (p b : Byte) : Byte := (crcStep p)^[8] b

/-- `tblgen(p)`: the whole table (R60). -/
def tblgen (p : Byte) : Vector Byte 256 :=
  ⟨((List.range 256).map fun b => tblEntry p (BitVec.ofNat 8 b)).toArray, by simp⟩

/-- `T[b]`. -/
def tableAt (T : Vector Byte 256) (b : Byte) : Byte := T[b.toNat]'b.isLt

/-- `crc8(T, s, seed)` (R61): `c <- T[c ^ s[j]]` over the bytes in order. -/
def crc8 (T : Vector Byte 256) (s : List Byte) (seed : Byte) : Byte :=
  s.foldl (fun c b => tableAt T (c ^^^ b)) seed

/-- `chain_seed(T, k, instr, a)` (R62): the first chunk's seed comes from the instruction byte, a later chunk's is
its own effective address. -/
def chainSeed (c : Config) (T : Vector Byte 256) (k : Nat) (instr a : Byte) : Byte :=
  if k = 0 then crc8 T [instr] c.crcSeed else a

end Sys2Proof.Machine
end

