-- ==== Sys2Proof/Machine/Ops.lean ====
section
/-! DEFINITION. The named operations: responses and raising a status (spec/60_exceptions.md R139), the bus primitive
`SpiSeg` (00_scope.md section 6), chip-select release (41_framer.md R84), transfers (R73 to R85), CSR access
(42_control.md R97, R98), channel access (43_scaler.md R106, R107), reset (70_reset_and_hazards.md R145). -/

namespace Sys2Proof.Machine

/-- A response leaves the block (R52). -/
def State.respond (s : State) (st : Status) (data : List Byte) : State :=
  { s with responses := s.responses ++ [⟨st, data⟩] }

/-- `raise <Status>`: what a failing command does (60_exceptions.md R139). The response is the status alone; nothing is
saved anywhere and control goes nowhere. There is no return from it (R140): the next command runs as if the failed
one had not been issued. -/
def State.raise (s : State) (st : Status) : State := s.respond st []

/-- The command ends as `e` says. -/
def State.finish (s : State) : Ending → State
  | .ok data => s.respond .ok data
  | .raise st => s.raise st

/-- What the device answers to a segment (00_scope.md section 6): as many bytes as are sent, from `devRx`, and free
where that has none left (log 2). -/
def State.answer (s : State) (tx : List Byte) (release : Bool) : List Byte :=
  (List.range tx.length).map fun j => s.devRx.getD j (Config.deviceByte s.bus tx release j)

/-- The state after `SpiSeg(tx, release)` (00_scope.md section 6): the segment is on the bus and chip select is as
`release` says. -/
def State.afterSeg (s : State) (tx : List Byte) (release : Bool) : State :=
  { s with
    csActive := !release
    devRx := s.devRx.drop tx.length
    bus := s.bus ++ [.seg tx (s.answer tx release) release] }

/-- The forced release of an abort (R84 item 2): only where chip select is still asserted, with no byte sent. -/
def State.releaseCs (s : State) : State :=
  if s.csActive then { s with csActive := false, bus := s.bus ++ [.csRelease] } else s

/-- `plain_write` (R73). -/
def State.plainWrite (s : State) (instr : Byte) (data : List Byte) : Ending × State :=
  (.ok [], (s.afterSeg [instr] false).afterSeg data true)

/-- `plain_read` (R73): the bytes of the second segment, unchecked. -/
def State.plainRead (s : State) (instr : Byte) (n : Nat) : Ending × State :=
  let s1 := s.afterSeg [instr] false
  let tx := List.replicate n s.cfg.txFill
  (.ok (s1.answer tx true), s1.afterSeg tx true)

/-- The instruction byte at the front of the first chunk only (R78, R80). -/
def leadBytes (instr : Byte) (k : Nat) : List Byte := if k = 0 then [instr] else []

/-- The CRC byte of a write chunk (R78). -/
def chunkCrc (c : Config) (T : Vector Byte 256) (instr : Byte) (data : List Byte) (ck : Chunk) : Byte :=
  crc8 T (slice data ck.offset ck.width) (chainSeed c T ck.index instr ck.addr)

/-- The bytes sent for a write chunk (R78). -/
def writeTx (c : Config) (T : Vector Byte 256) (instr : Byte) (data : List Byte) (ck : Chunk) : List Byte :=
  leadBytes instr ck.index ++ slice data ck.offset ck.width ++ [chunkCrc c T instr data ck]

/-- The bytes sent for a read chunk (R80). -/
def readTx (c : Config) (instr : Byte) (ck : Chunk) : List Byte :=
  leadBytes instr ck.index ++ List.replicate (ck.width + 1) c.txFill

/-- The write chunks in plan order (R78), each with its echo check (R79), aborting at the first mismatch (R84). -/
def State.crcWrite (T : Vector Byte 256) (instr : Byte) (data : List Byte) : List Chunk → State → Ending × State
  | [], s => (.ok [], s)
  | ck :: rest, s =>
    let tx := writeTx s.cfg T instr data ck
    let rx := s.answer tx rest.isEmpty
    let s1 := s.afterSeg tx rest.isEmpty
    if rx.getD (tx.length - 1) 0#8 = chunkCrc s.cfg T instr data ck then State.crcWrite T instr data rest s1
    else (.raise .badMessage, s1.releaseCs)

/-- The register bytes of a read chunk's answer (R80). -/
def readBytes (ck : Chunk) (rx : List Byte) : List Byte := slice rx (if ck.index = 0 then 1 else 0) ck.width

/-- The received CRC byte of a read chunk's answer (R80). -/
def readCrc (ck : Chunk) (rx : List Byte) : Byte := rx.getD ((if ck.index = 0 then 1 else 0) + ck.width) 0#8

/-- The check of R81 holds, or the chunk is a continuation chunk, which is not checked (R80, R81). -/
def readPasses (c : Config) (T : Vector Byte 256) (instr : Byte) (ck : Chunk) (rx : List Byte) : Bool :=
  decide (ck.index ≠ 0) || readCrc ck rx == crc8 T (readBytes ck rx) (chainSeed c T 0 instr ck.addr)

/-- The read chunks in plan order (R80); `out` holds the bytes gathered so far. -/
def State.crcRead (T : Vector Byte 256) (instr : Byte) : List Chunk → List Byte → State → Ending × State
  | [], out, s => (.ok out, s)
  | ck :: rest, out, s =>
    let tx := readTx s.cfg instr ck
    let rx := s.answer tx rest.isEmpty
    let s1 := s.afterSeg tx rest.isEmpty
    if readPasses s.cfg T instr ck rx then State.crcRead T instr rest (out ++ readBytes ck rx) s1
    else (.raise .badMessage, s1.releaseCs)

/-- `check_len(n)` fails (R74). -/
def badLength (c : Config) (n : Nat) : Bool := decide (n = 0) || decide (c.maxLen < n)

/-- What stops a CRC-secured transfer before any bus activity (R85 items 3 and 4), or the plan and the table. -/
def State.secure (s : State) (addr : Byte) (n : Nat) : Except Status (List Chunk × Vector Byte 256) :=
  match chunkPlan s.cfg s.addrAsc s.streamLen addr n with
  | none => .error .invalidArgument
  | some plan =>
    match s.crc with
    | none => .error .notReady
    | some t => .ok (plan, t.table)

/-- `MemWrite(addr, n, bytes)` (20_memory.md R33): the write transfer of R71, its checks in the order of R85. -/
def State.memWrite (s : State) (addr : Byte) (data : List Byte) : Ending × State :=
  if badLength s.cfg data.length then (.raise .invalidArgument, s)
  else if s.crcEn then
    match s.secure addr data.length with
    | .error st => (.raise st, s)
    | .ok (plan, T) => State.crcWrite T (instrByte s.cfg addr false) data plan s
  else s.plainWrite (instrByte s.cfg addr false) data

/-- `MemRead(addr, n)` (R33): the read transfer of R72. -/
def State.memRead (s : State) (addr : Byte) (n : Nat) : Ending × State :=
  if badLength s.cfg n then (.raise .invalidArgument, s)
  else if s.crcEn then
    match s.secure addr n with
    | .error st => (.raise st, s)
    | .ok (plan, T) => State.crcRead T (instrByte s.cfg addr true) plan [] s
  else s.plainRead (instrByte s.cfg addr true) n

/-- What `REG.RD` makes of the transfer's bytes (R88). -/
def regReadEnding (c : Config) (w : Nat) : Ending → Ending
  | .ok bytes => .ok (beBytes 3 (regReadValue c w bytes))
  | .raise st => .raise st

/-- The value of a CSR (R15 to R19, R98); reserved bits read as 0. -/
def State.csrValue (s : State) : Csr → Ending
  | .ctrl => .ok [flagByte s.crcEn]
  | .spicfg => .ok [flagByte s.addrAsc ||| flagByte s.singleInstr <<< 1 ||| flagByte s.streamKeep <<< 2]
  | .streamlen => .ok [s.streamLen]
  | .status => .ok [flagByte s.tableValid]
  | .polyr =>
    match s.crc with
    | none => .raise .notReady
    | some t => .ok [t.poly]

/-- `CSR[csr] <- value & wmask(csr)` (R96, R97); `none` for a read-only CSR. -/
def State.csrWrite (s : State) (v : Byte) : Csr → Option State
  | .ctrl => some { s with crcEn := v.getLsbD 0 }
  | .spicfg => some { s with addrAsc := v.getLsbD 0, singleInstr := v.getLsbD 1, streamKeep := v.getLsbD 2 }
  | .streamlen => some { s with streamLen := v }
  | .status => none
  | .polyr => none

/-- The channel with a number (R21). A state with fewer channels than `N_CH`, which `State.Inv` excludes, reads the
missing ones as freshly reset (log 15). -/
def State.chan (s : State) (c : Byte) : Channel := s.ch.getD c.toNat (Channel.atReset s.cfg)

/-- The channel number names no channel: `ch >= N_CH`. -/
def State.noChan (s : State) (c : Byte) : Bool := decide (s.cfg.nCh ≤ c.toNat)

/-- A new value for one channel. -/
def State.setChan (s : State) (c : Byte) (x : Channel) : State := { s with ch := s.ch.set c.toNat x }

/-- A derived pair is read out, or `NotReady` while `SC_VALID = 0` (R118, R119). -/
def readPair (d : Option Derived) (f : Derived → Int × Int) : Ending :=
  match d with
  | none => .raise .notReady
  | some x => .ok (pairBytes (f x).1 (f x).2)

/-- The reset event (R145, R146): every piece of the block's state at the value of 10_state.md R26, no bus activity.
The model's own fields, which are outside the block, stay (log 11). -/
def State.applyReset (s : State) : State :=
  { State.resetOf s.cfg with inputs := s.inputs, devRx := s.devRx, bus := s.bus, responses := s.responses }

/-- The status that answers a byte sequence which is no command (R52, R54, R138 items 1 to 3). -/
def rejectStatus : Reject → Status
  | .empty => .invalidArgument
  | .reservedOpcode _ => .unsupported
  | .wrongLength _ => .invalidArgument

end Sys2Proof.Machine
end

