-- ==== Sys2Proof/Machine/Control.lean ====
section
/-! DEFINITION. The control-register instructions (spec/42_control.md R97, R98). -/

namespace Sys2Proof.Machine

/-- `CSR.WR csr, value` (R97). No bus activity: only the block's cached copy changes. -/
def execCsrWr (csr value : Byte) (s : State) : Outcome :=
  match Csr.ofByte csr with
  | none => .next (s.raise .invalidArgument)
  | some r =>
    match s.csrWrite value r with
    | none => .next (s.raise .invalidArgument)
    | some s' => .next (s'.respond .ok [])

/-- `CSR.RD csr` (R98). -/
def execCsrRd (csr : Byte) (s : State) : Outcome :=
  match Csr.ofByte csr with
  | none => .next (s.raise .invalidArgument)
  | some r => .next (s.finish (s.csrValue r))

end Sys2Proof.Machine
end

