-- ==== Sys2Proof/Machine/Crc.lean ====
section
/-! DEFINITION. The instructions of the CRC engine (spec/40_crc.md R64, R65). -/

namespace Sys2Proof.Machine

/-- `CRC.INIT poly` (R64): the whole table, `POLYR` and `TABLE_VALID` in one step. -/
def execCrcInit (poly : Byte) (s : State) : Outcome :=
  .next ({ s with crc := some ⟨poly, tblgen poly⟩ }.respond .ok [])

/-- `CRC.CALC seed, n, data` (R65). -/
def execCrcCalc (seed : Byte) (data : List Byte) (s : State) : Outcome :=
  .next (s.finish (match s.crc with
    | none => .raise .notReady
    | some t => .ok [crc8 t.table data seed]))

end Sys2Proof.Machine
end

