-- ==== Sys2Proof/Machine/Framer.lean ====
section
/-! DEFINITION. The instructions of the framer (spec/41_framer.md R71, R72, R87, R88). -/

namespace Sys2Proof.Machine

/-- `XFER.WR addr, n, data` (R71). -/
def execXferWr (addr : Byte) (data : List Byte) (s : State) : Outcome :=
  let r := s.memWrite addr data
  .next (r.2.finish r.1)

/-- `XFER.RD addr, n` (R72). -/
def execXferRd (addr n : Byte) (s : State) : Outcome :=
  let r := s.memRead addr n.toNat
  .next (r.2.finish r.1)

/-- `REG.WR addr, value` (R87): the register checks of R86, then a write transfer of the register's bytes. -/
def execRegWr (addr : Byte) (value : BitVec 24) (s : State) : Outcome :=
  if regRefused s.cfg s.addrAsc addr then .next (s.raise .invalidArgument)
  else
    let w := reglen s.cfg addr
    let r := s.memWrite addr (beBytes w (regWriteValue s.cfg w value))
    .next (r.2.finish r.1)

/-- `REG.RD addr` (R88): the register checks of R86, then a read transfer of the register's bytes. -/
def execRegRd (addr : Byte) (s : State) : Outcome :=
  if regRefused s.cfg s.addrAsc addr then .next (s.raise .invalidArgument)
  else
    let w := reglen s.cfg addr
    let r := s.memRead addr w
    .next (r.2.finish (regReadEnding s.cfg w r.1))

end Sys2Proof.Machine
end

