-- ==== Sys2Proof/Machine/Scaler.lean ====
section
/-! DEFINITION. The instructions of the scaler (spec/43_scaler.md R106, R107, R118 to R120). -/

namespace Sys2Proof.Machine

/-- `CH.WR ch, field, value` (R106). -/
def execChWr (ch field : Byte) (value : BitVec 16) (s : State) : Outcome :=
  if s.noChan ch then .next (s.raise .invalidArgument)
  else
    match ChField.ofByte field with
    | none => .next (s.raise .invalidArgument)
    | some f =>
      if legalValue s.cfg f value then .next ((s.setChan ch ((s.chan ch).write s.cfg f value)).respond .ok [])
      else .next (s.raise .invalidArgument)

/-- `CH.RD ch, field` (R107). -/
def execChRd (ch field : Byte) (s : State) : Outcome :=
  if s.noChan ch then .next (s.raise .invalidArgument)
  else
    match ChField.ofByte field with
    | none => .next (s.raise .invalidArgument)
    | some f => .next (s.respond .ok (beBytes 2 ((s.chan ch).getField f).toNat))

/-- `SC.SCALE ch` (R118). -/
def execScScale (ch : Byte) (s : State) : Outcome :=
  if s.noChan ch then .next (s.raise .invalidArgument)
  else .next (s.finish (readPair (s.chan ch).derived fun d => (d.scaleInt, d.scaleFrac)))

/-- `SC.OFFSET ch` (R119). -/
def execScOffset (ch : Byte) (s : State) : Outcome :=
  if s.noChan ch then .next (s.raise .invalidArgument)
  else .next (s.finish (readPair (s.chan ch).derived fun d => (d.offsetInt, d.offsetFrac)))

/-- `SC.CONV ch, image` (R120): the checks in the order channel, image width, `SC_VALID` (R138). With `MICRO = 0` the
quotient is 0 and the remainder the dividend (DESIGN CHOICE, log 21; unsafe). -/
def execScConv (ch : Byte) (image : BitVec 24) (s : State) : Outcome :=
  if s.noChan ch then .next (s.raise .invalidArgument)
  else if (s.chan ch).fast = 1#1 ∧ 0x010000 ≤ image.toNat then .next (s.raise .invalidArgument)
  else .next (s.finish (readPair (s.chan ch).derived fun d =>
    let m := convertCode s.cfg d (codeOfImage s.cfg (s.chan ch) image)
    (Int.tdiv m s.cfg.micro, Int.tmod m s.cfg.micro)))

end Sys2Proof.Machine
end

