-- ==== Sys2Proof/Machine/Wire.lean ====
section
/-! DEFINITION. The wire instruction-byte forms (spec/30_encoding.md R46). They are no host commands (R45): a step runs
them inside the transfer whose instruction byte they are (00_scope.md R6: one command in, one response out), and the
response is the transfer's. Their effect is segment 1 of a plain frame (R47, 41_framer.md R73): the byte is sent, the
byte received is ignored, chip select stays asserted into segment 2. DEDUCED, log 5. -/

namespace Sys2Proof.Machine

/-- The instruction byte of a write at `addr` goes out on the bus (R46, R47). -/
def execWireWr (addr : Byte) (s : State) : Outcome := .next (s.afterSeg [instrByte s.cfg addr false] false)

/-- The instruction byte of a read at `addr` goes out on the bus (R46, R47). -/
def execWireRd (addr : Byte) (s : State) : Outcome := .next (s.afterSeg [instrByte s.cfg addr true] false)

end Sys2Proof.Machine
end

