-- ==== Sys2Proof/Machine/Dispatch.lean ====
section
/-! DEFINITION. One arm per instruction. -/

namespace Sys2Proof.Machine

def exec (i : Instr) (s : State) : Host.Outcome State Fault Refusal :=
  match i with
  | .crcInit poly => Sys2Proof.Machine.execCrcInit poly s
  | .crcCalc seed data => Sys2Proof.Machine.execCrcCalc seed data s
  | .xferWr addr data => Sys2Proof.Machine.execXferWr addr data s
  | .xferRd addr n => Sys2Proof.Machine.execXferRd addr n s
  | .regWr addr value => Sys2Proof.Machine.execRegWr addr value s
  | .regRd addr => Sys2Proof.Machine.execRegRd addr s
  | .csrWr csr value => Sys2Proof.Machine.execCsrWr csr value s
  | .csrRd csr => Sys2Proof.Machine.execCsrRd csr s
  | .chWr ch field value => Sys2Proof.Machine.execChWr ch field value s
  | .chRd ch field => Sys2Proof.Machine.execChRd ch field s
  | .scScale ch => Sys2Proof.Machine.execScScale ch s
  | .scOffset ch => Sys2Proof.Machine.execScOffset ch s
  | .scConv ch image => Sys2Proof.Machine.execScConv ch image s
  | .wireWr addr => Sys2Proof.Machine.execWireWr addr s
  | .wireRd addr => Sys2Proof.Machine.execWireRd addr s

end Sys2Proof.Machine
end

