-- ==== Sys2Proof/Machine/Fetch.lean ====
section
/-! DEFINITION. How an input becomes an instruction, and how a table word becomes an input. The block fetches nothing
(spec/10_state.md R11): the host presents the next command, and a program is loaded from outside (log 3). -/

namespace Sys2Proof.Machine

/-- The state once the next input is taken. -/
def State.takeInput (s : State) : State := { s with inputs := s.inputs.drop 1 }

/-- The shortest transfer that a wire instruction byte begins: a write of one zero byte or a read of one byte, in the
direction and at the address the byte carries (30_encoding.md R46). DESIGN CHOICE, log 6: the spec has no command that is a
wire byte alone, and the bits behind a table word are zeros. -/
def wireTransfer (c : Config) (b : Byte) : Instr :=
  if b &&& c.readBit = 0#8 then .xferWr (b &&& c.addrMask) [0#8] else .xferRd (b &&& c.addrMask) 1#8

/-- The command that a word of spec/opcode_table.json stands for (log 6): the word itself where its first byte is a host
opcode, else the transfer that it begins as a wire instruction byte. -/
def inputOfWord (c : Config) (nbits w : Nat) : Input :=
  match Opcode.ofByte (tableByte nbits w 0) with
  | some o => .command (tableBytes o nbits w)
  | none => .command (encode c (wireTransfer c (tableByte nbits w 0)))

/-- The input given next, before those already there. -/
def State.issue (s : State) (x : Input) : State := { s with inputs := x :: s.inputs }

end Sys2Proof.Machine
end

