-- ==== Sys2Proof/Machine/Step.lean ====
section
/-! DEFINITION. One step: one input, the whole of its effect (spec/00_scope.md R6, 20_memory.md R41). -/

namespace Sys2Proof.Machine

/-- One step. A command: decoded and run whole, or answered with the status of R52 and R54, with one response (R6). A
reset: R145. No input: the block is idle and holds its state (60_exceptions.md R144; that this is a step is DEDUCED,
log 10). -/
def step (s : State) : Host.Outcome State Fault Refusal :=
  match s.inputs with
  | [] => .next s
  | .command bytes :: _ =>
    match decode bytes with
    | .instr i => exec i s.takeInput
    | .rejected r => .next (s.takeInput.raise (rejectStatus r))
  | .reset :: _ => .next s.takeInput.applyReset

/-- The state whose very next step runs the instruction of a table word: the host issues it now, a wire form in the
transfer that it begins (log 3, log 6). -/
def State.withFetchWord (s : State) (nbits w : Nat) : State := s.issue (inputOfWord s.cfg nbits w)

end Sys2Proof.Machine
end

