-- ==== Sys2Proof/Machine/Pseudo.lean ====
section
/-! DEFINITION. The pseudo-instructions and their expansions (spec/30_encoding.md R57), and the assembler syntax of R56. -/

namespace Sys2Proof.Machine

/-- The pseudo-instructions of R57. -/
inductive Pseudo where
  | crcOn
  | crcOff
  | scRange (ch : Byte) (idx : BitVec 16)
  | scCustom (ch : Byte) (pol goff gp gn rfb : BitVec 16)
deriving DecidableEq, Repr

/-- The expansions of R57; the custom sequence is in the fixed order the source gives. -/
def Pseudo.expand : Pseudo → List Instr
  | .crcOn => [.csrWr 0x00#8 0x01#8]
  | .crcOff => [.csrWr 0x00#8 0x00#8]
  | .scRange ch idx => [.chWr ch 1#8 idx]
  | .scCustom ch pol goff gp gn rfb =>
    [.chWr ch 2#8 1#16, .chWr ch 7#8 pol, .chWr ch 6#8 goff, .chWr ch 4#8 gp, .chWr ch 5#8 gn, .chWr ch 3#8 rfb]

/-- Blanks of a line. -/
def isBlank (c : Char) : Bool := c == ' ' || c == '\t'

/-- The line without its leading blanks. -/
def trimStart : List Char → List Char
  | [] => []
  | c :: cs => if isBlank c then trimStart cs else c :: cs

/-- The text without the blanks around it. -/
def trim (cs : List Char) : List Char := (trimStart (trimStart cs).reverse).reverse

/-- The pieces between the characters that `sep` holds of. -/
def pieces (sep : Char → Bool) : List Char → List (List Char)
  | [] => [[]]
  | c :: cs =>
    match pieces sep cs with
    | [] => [[c]]
    | p :: ps => if sep c then [] :: p :: ps else (c :: p) :: ps

/-- The value of a digit. -/
def digitValue (base : Nat) (c : Char) : Option Nat :=
  let n := c.toNat
  let v := if 48 ≤ n ∧ n ≤ 57 then n - 48 else if 65 ≤ n ∧ n ≤ 70 then n - 55 else if 97 ≤ n ∧ n ≤ 102 then n - 87 else 99
  if v < base then some v else none

/-- The value of a digit string that follows digits of value `acc`. -/
def digitsFrom (base : Nat) : Nat → List Char → Option Nat
  | acc, [] => some acc
  | acc, c :: cs =>
    match digitValue base c with
    | none => none
    | some d => digitsFrom base (acc * base + d) cs

/-- The value of a digit string that is not empty. -/
def digits (base : Nat) (cs : List Char) : Option Nat := if cs = [] then none else digitsFrom base 0 cs

/-- "Numbers are decimal or `0x` hexadecimal" (R56). -/
def number : List Char → Option Nat
  | '0' :: 'x' :: cs => digits 16 cs
  | cs => digits 10 cs

/-- A number that fits an operand of `w` bits. -/
def sized (w : Nat) (v : Option Nat) : Option (BitVec w) :=
  match v with
  | none => none
  | some n => if n < 2 ^ w then some (BitVec.ofNat w n) else none

/-- The names CSR operands may be written by (R56). -/
def csrNames : List (String × Nat) := [("CTRL", 0), ("SPICFG", 1), ("STREAMLEN", 2), ("STATUS", 3), ("POLYR", 4)]

/-- The names channel fields may be written by (R56). -/
def fieldNames : List (String × Nat) :=
  [("FAST", 0), ("RANGE", 1), ("OVERRIDE", 2), ("RFB", 3), ("GAIN_P", 4), ("GAIN_N", 5), ("GOFF", 6), ("GPOL", 7),
   ("VALID", 8)]

/-- A name of the list, or a number. -/
def named (names : List (String × Nat)) (cs : List Char) : Option Nat :=
  match names.find? (fun p => p.1.toList = cs) with
  | some p => some p.2
  | none => number cs

/-- A byte operand. -/
def byteOperand (cs : List Char) : Option Byte := sized 8 (number cs)

/-- The bytes of a buffer, hexadecimal without a mark before them (R56). -/
def bufferBytes : List (List Char) → Option (List Byte)
  | [] => some []
  | [] :: ws => bufferBytes ws
  | (c :: w) :: ws =>
    match sized 8 (digits 16 (c :: w)), bufferBytes ws with
    | some b, some bs => some (b :: bs)
    | _, _ => none

/-- A buffer operand `[b0 b1 ...]` (R56); its length is the operand `n`, which must fit a byte. -/
def buffer : List Char → Option (List Byte)
  | '[' :: cs =>
    match cs.reverse with
    | ']' :: inside => (bufferBytes (pieces isBlank inside.reverse)).filter (fun d => decide (d.length ≤ 255))
    | _ => none
  | _ => none

/-- What a mnemonic of the assembler names: an instruction of R53 or a pseudo-instruction of R57. -/
inductive Mnemonic where
  | core (o : Opcode)
  | crcOn | crcOff | scRange | scCustom
deriving DecidableEq, Repr

/-- The mnemonics (R53, R57). -/
def mnemonics : List (String × Mnemonic) :=
  [("CRC.INIT", .core .crcInit), ("CRC.CALC", .core .crcCalc), ("XFER.WR", .core .xferWr), ("XFER.RD", .core .xferRd),
   ("REG.WR", .core .regWr), ("REG.RD", .core .regRd), ("CSR.WR", .core .csrWr), ("CSR.RD", .core .csrRd),
   ("CH.WR", .core .chWr), ("CH.RD", .core .chRd), ("SC.SCALE", .core .scScale), ("SC.OFFSET", .core .scOffset),
   ("SC.CONV", .core .scConv), ("CRC.ON", .crcOn), ("CRC.OFF", .crcOff), ("SC.RANGE", .scRange),
   ("SC.CUSTOM", .scCustom)]

/-- A register value, channel value or image of `w` bits written as a number. -/
def wide (w : Nat) (cs : List Char) : Option (BitVec w) := sized w (number cs)

/-- One instruction from its operands' texts (R56, operands in the order of R53). -/
def assembleCore : Opcode → List (List Char) → Option Instr
  | .crcInit, [p] => (byteOperand p).map .crcInit
  | .crcCalc, [sd, d] => (byteOperand sd).bind fun a => (buffer d).map fun b => .crcCalc a b
  | .xferWr, [ad, d] => (byteOperand ad).bind fun a => (buffer d).map fun b => .xferWr a b
  | .xferRd, [ad, n] => (byteOperand ad).bind fun a => (byteOperand n).map fun b => .xferRd a b
  | .regWr, [ad, v] => (byteOperand ad).bind fun a => (wide 24 v).map fun b => .regWr a b
  | .regRd, [ad] => (byteOperand ad).map .regRd
  | .csrWr, [r, v] => (sized 8 (named csrNames r)).bind fun a => (byteOperand v).map fun b => .csrWr a b
  | .csrRd, [r] => (sized 8 (named csrNames r)).map .csrRd
  | .chWr, [c, f, v] => (byteOperand c).bind fun a => (sized 8 (named fieldNames f)).bind fun b =>
      (wide 16 v).map fun x => .chWr a b x
  | .chRd, [c, f] => (byteOperand c).bind fun a => (sized 8 (named fieldNames f)).map fun b => .chRd a b
  | .scScale, [c] => (byteOperand c).map .scScale
  | .scOffset, [c] => (byteOperand c).map .scOffset
  | .scConv, [c, v] => (byteOperand c).bind fun a => (wide 24 v).map fun b => .scConv a b
  | _, _ => none

/-- The instructions of a mnemonic and its operands' texts; a pseudo-instruction gives its expansion (R57). -/
def assembleOp : Mnemonic → List (List Char) → Option (List Instr)
  | .core o, args => (assembleCore o args).map fun i => [i]
  | .crcOn, [[]] => some Pseudo.crcOn.expand
  | .crcOff, [[]] => some Pseudo.crcOff.expand
  | .scRange, [c, v] => (byteOperand c).bind fun a => (wide 16 v).map fun b => (Pseudo.scRange a b).expand
  | .scCustom, [c, pol, goff, gp, gn, rfb] =>
    (byteOperand c).bind fun a => (wide 16 pol).bind fun p => (wide 16 goff).bind fun o => (wide 16 gp).bind fun x =>
      (wide 16 gn).bind fun y => (wide 16 rfb).map fun r => (Pseudo.scCustom a p o x y r).expand
  | _, _ => none

/-- The instructions of one line of assembler text (R56): a comment starts at `;`, a line with nothing before it gives
no instruction, `none` is a line that the syntax does not have. -/
def assembleLine (line : String) : Option (List Instr) :=
  let text := trim (line.toList.takeWhile (· != ';'))
  if text = [] then some []
  else
    match mnemonics.find? (fun p => p.1.toList = text.takeWhile (fun c => !isBlank c)) with
    | none => none
    | some p => assembleOp p.2 ((pieces (· == ',') (text.dropWhile (fun c => !isBlank c))).map trim)

end Sys2Proof.Machine
end

