-- ==== Sys2Proof/Safety.lean ====
section
/-! DEFINITION. What holds between commands: the invariants of spec/10_state.md R13, R14, R21, R23, R24. -/

namespace Sys2Proof.Machine

/-- A channel's `RANGE` holds a legal value (R21). The other fields are legal by their widths. -/
def Channel.Legal (c : Config) (ch : Channel) : Prop :=
  ch.range.toNat < c.nRanges ∨ ch.range.toNat = c.rangeCustom.toNat

/-- The invariant of the scaler for one channel (R23): the derived fields are what R114 computes from the inputs. -/
def Channel.Fresh (c : Config) (ch : Channel) : Prop := ch.derived = deriveChannel c ch

/-- The invariant between commands: the parameters meet their constraints, there are `N_CH` channels, each fresh (R23)
and legal (R21), and a table that is valid is the one of its polynomial (R13, R64). -/
structure State.Inv (s : State) : Prop where
  params : s.cfg.wf = true
  someRange : s.cfg.rangeTable ≠ []
  channels : s.ch.length = s.cfg.nCh
  fresh : ∀ ch ∈ s.ch, ch.Fresh s.cfg
  legal : ∀ ch ∈ s.ch, ch.Legal s.cfg
  table : ∀ t, s.crc = some t → t.table = tblgen t.poly

/-- Chip select is released (R24). -/
def State.Quiet (s : State) : Prop := s.csActive = false

end Sys2Proof.Machine
end

