-- ==== Sys2Proof/WellFormed.lean ====
section
/-! DEFINITION. Which instructions an encoding exists for. The operand widths are in the types; what is left is
the length of a data buffer, which the one-byte field `n` must express (30_encoding.md R53: 0 to 255), and the
address of a wire instruction byte, whose bits outside `ADDR_MASK` are not in the byte (R46). -/

namespace Sys2Proof

def Instr.wf (c : Config) : Instr → Bool
  | .crcCalc _ data => decide (data.length ≤ 255)
  | .xferWr _ data => decide (data.length ≤ 255)
  | .wireWr addr => addr &&& c.addrMask == addr
  | .wireRd addr => addr &&& c.addrMask == addr
  | .crcInit _ | .xferRd _ _ | .regWr _ _ | .regRd _ | .csrWr _ _ | .csrRd _
  | .chWr _ _ _ | .chRd _ _ | .scScale _ | .scOffset _ | .scConv _ _ => true

end Sys2Proof
end

