-- ==== Sys2Proof/Certificates/Slice0/Obligations.lean ====
section
/-! DEFINITION. The statements for the provers, from the numbered rules of spec/. The definitions under
`Sys2Proof.Spec` are the terms the statements use, written from the rules and not from the model's operations. -/

open Sys2Proof Sys2Proof.Machine

namespace Sys2Proof.Spec

/-- The command is answered with a status alone and nothing else happens (60_exceptions.md R139). -/
def refusedWith (s : State) (st : Status) : Outcome :=
  .next { s with responses := s.responses ++ [⟨st, []⟩] }

/-- The command is answered `OK` with data and nothing else happens. -/
def answeredWith (s : State) (data : List Byte) : Outcome :=
  .next { s with responses := s.responses ++ [⟨.ok, data⟩] }

/-- Everything that the block itself holds between commands, and the parameters and the host's inputs, agree; only
chip select, the device's answers, the bus trace and the responses may differ. -/
structure SameBlock (s t : State) : Prop where
  crc : t.crc = s.crc
  crcEn : t.crcEn = s.crcEn
  addrAsc : t.addrAsc = s.addrAsc
  singleInstr : t.singleInstr = s.singleInstr
  streamKeep : t.streamKeep = s.streamKeep
  streamLen : t.streamLen = s.streamLen
  ch : t.ch = s.ch
  cfg : t.cfg = s.cfg
  inputs : t.inputs = s.inputs

/-- The bus side agrees. -/
structure SameBus (s t : State) : Prop where
  bus : t.bus = s.bus
  devRx : t.devRx = s.devRx
  csActive : t.csActive = s.csActive

/-- The statuses an instruction can end with (60_exceptions.md R131; a wrong command length is the decoder's). -/
def statuses : Instr → List Status
  | .crcInit _ => [.ok]
  | .crcCalc _ _ => [.ok, .notReady]
  | .xferWr _ _ | .xferRd _ _ | .regWr _ _ | .regRd _ => [.ok, .invalidArgument, .notReady, .badMessage]
  | .csrWr _ _ => [.ok, .invalidArgument]
  | .csrRd _ => [.ok, .invalidArgument, .notReady]
  | .chWr _ _ _ => [.ok, .invalidArgument]
  | .chRd _ _ => [.ok, .invalidArgument]
  | .scScale _ | .scOffset _ | .scConv _ _ => [.ok, .invalidArgument, .notReady]
  | .wireWr _ | .wireRd _ => []

/-- The instructions that reach the bus: the transfers and the wire instruction bytes. -/
def usesBus : Instr → Bool
  | .xferWr _ _ | .xferRd _ _ | .regWr _ _ | .regRd _ | .wireWr _ | .wireRd _ => true
  | .crcInit _ | .crcCalc _ _ | .csrWr _ _ | .csrRd _ | .chWr _ _ _ | .chRd _ _ | .scScale _ | .scOffset _
  | .scConv _ _ => false

/-- The instruction bytes of R46. -/
def instrWr (c : Config) (addr : Byte) : Byte := addr &&& c.addrMask
def instrRd (c : Config) (addr : Byte) : Byte := (addr &&& c.addrMask) ||| c.readBit

/-- A length that `check_len` of R74 lets pass. -/
def LengthOk (c : Config) (n : Nat) : Prop := 1 ≤ n ∧ n ≤ c.maxLen

/-- The segments of a transfer that planned the sendings `txs` and got the answers `rxs` before it ended: chip select is
released on the last planned one only (41_framer.md R82). -/
def segments (txs rxs : List (List Byte)) : List BusEvent :=
  (List.range rxs.length).map fun j => .seg (txs.getD j []) (rxs.getD j []) (decide (j + 1 = txs.length))

/-- The seed of a chunk (R62): from the instruction byte for chunk 0, else the chunk's own address. -/
def seedOf (c : Config) (T : Vector Byte 256) (instr : Byte) (ck : Chunk) : Byte :=
  if ck.index = 0 then crc8 T [instr] c.crcSeed else ck.addr

/-- The bytes sent for a write chunk (R48, R78). -/
def chunkOut (c : Config) (T : Vector Byte 256) (instr : Byte) (data : List Byte) (ck : Chunk) : List Byte :=
  (if ck.index = 0 then [instr] else []) ++ ((data.drop ck.offset).take ck.width) ++
    [crc8 T ((data.drop ck.offset).take ck.width) (seedOf c T instr ck)]

/-- The bytes sent for a read chunk (R48, R80). -/
def chunkFill (c : Config) (instr : Byte) (ck : Chunk) : List Byte :=
  (if ck.index = 0 then [instr] else []) ++ List.replicate (ck.width + 1) c.txFill

/-- The register bytes in the answer to a read chunk (R80). -/
def chunkIn (ck : Chunk) (rx : List Byte) : List Byte := (rx.drop (if ck.index = 0 then 1 else 0)).take ck.width

/-- The received CRC byte of the first read chunk matches (R81). -/
def FirstPasses (c : Config) (T : Vector Byte 256) (instr : Byte) (ck : Chunk) (rx : List Byte) : Prop :=
  rx.getD (1 + ck.width) 0#8 = crc8 T ((rx.drop 1).take ck.width) (crc8 T [instr] c.crcSeed)

/-- Where chunk `k` of the unbounded chunk sequence of R76 stands: its buffer offset `i` and its increment `inc`. -/
def visit (c : Config) (asc : Bool) (L addr : Byte) : Nat → Nat × Int
  | 0 => (0, 0)
  | k + 1 =>
    let p := visit c asc L addr k
    let a : Byte := BitVec.ofInt 8 ((addr.toNat + if L = 0#8 then p.2 else Int.tmod p.2 L.toNat) % c.addrSpace)
    (p.1 + reglen c a, if asc then p.2 + reglen c a else p.2 - reglen c a)

/-- The effective address of chunk `k` (R76). -/
def visitAddr (c : Config) (asc : Bool) (L addr : Byte) (k : Nat) : Byte :=
  BitVec.ofInt 8 ((addr.toNat +
    if L = 0#8 then (visit c asc L addr k).2 else Int.tmod (visit c asc L addr k).2 L.toNat) % c.addrSpace)

/-- One bit into a bit-serial CRC register of polynomial `p`: shift left, XOR the polynomial when the bit shifted out
differs from the message bit. -/
def serialStep (p c : Byte) (bit : Bool) : Byte := (c <<< 1) ^^^ (if c.getLsbD 7 != bit then p else 0#8)

/-- The bits of a byte sequence, each byte's most significant bit first. -/
def bitsOf (s : List Byte) : List Bool := s.flatMap fun b => (List.range 8).map fun j => b.getLsbD (7 - j)

/-- What `CH.WR` with a legal value makes of a channel (R106): the field, and for fields 1 to 7 the derived numbers of
R114 from the new inputs. -/
def channelWritten (c : Config) (old : Channel) (field : Nat) (v : BitVec 16) : Channel :=
  let x : Channel :=
    if field = 0 then { old with fast := v.setWidth 1 }
    else if field = 1 then { old with range := v.setWidth 8 }
    else if field = 2 then { old with override := v.setWidth 1 }
    else if field = 3 then { old with rfb := v }
    else if field = 4 then { old with gainP := v.setWidth 2 }
    else if field = 5 then { old with gainN := v.setWidth 2 }
    else if field = 6 then { old with goff := v }
    else { old with gpol := v.setWidth 1 }
  if field = 0 then x else { x with derived := deriveChannel c x }

/-- The legal values of the input fields (R21, R106). -/
def legal (c : Config) (field v : Nat) : Prop :=
  if field = 0 ∨ field = 2 ∨ field = 7 then v ≤ 1
  else if field = 1 then v < c.rangeTable.length ∨ v = c.rangeCustom.toNat
  else if field = 4 ∨ field = 5 then v ≤ 3
  else True

/-- The value that `CH.RD` gives for a field (R107, R21). -/
def fieldValue (x : Channel) (field : Nat) : BitVec 16 :=
  if field = 0 then x.fast.setWidth 16
  else if field = 1 then x.range.setWidth 16
  else if field = 2 then x.override.setWidth 16
  else if field = 3 then x.rfb
  else if field = 4 then x.gainP.setWidth 16
  else if field = 5 then x.gainN.setWidth 16
  else if field = 6 then x.goff
  else if field = 7 then x.gpol.setWidth 16
  else if x.derived = none then 0#16 else 1#16

/-- The writable bits of the read-write CSRs (R96). -/
def wmask (csr : Nat) : Byte := if csr = 0 then 0x01#8 else if csr = 1 then 0x07#8 else 0xFF#8

/-- The instructions of a list, one after the other. -/
def runList : List Instr → State → Outcome
  | [], s => .next s
  | i :: is, s =>
    match exec i s with
    | .next t => runList is t
    | .fault f => .fault f
    | .refused r => .refused r

end Sys2Proof.Spec

open Sys2Proof.Spec

/-! ### Encodings -/

/-- R52, R53: the decoder reads every host command back from its bytes, for every operand the encoding admits. -/
def Obligations.DecodeReadsEncodedCommand : Prop :=
  ∀ (c : Config) (i : Instr), i.isCommand = true → i.wf c = true → decode (encode c i) = .instr i

/-- R52: a byte sequence that decodes is exactly the encoding of its instruction (no second spelling, no spare byte). -/
def Obligations.AcceptedBytesAreTheEncoding : Prop :=
  ∀ (c : Config) (bytes : List Byte) (i : Instr), decode bytes = .instr i →
    i.isCommand = true ∧ i.wf c = true ∧ encode c i = bytes

/-- R46, R51: the instruction byte carries the masked address and the direction, and reads back as them. -/
def Obligations.WireByteCarriesAddressAndDirection : Prop :=
  ∀ (c : Config) (addr : Byte), c.wf = true →
    encode c (.wireWr addr) = [addr &&& c.addrMask] ∧
    encode c (.wireRd addr) = [(addr &&& c.addrMask) ||| c.readBit] ∧
    decodeWire c (instrWr c addr) = .wireWr (addr &&& c.addrMask) ∧
    decodeWire c (instrRd c addr) = .wireRd (addr &&& c.addrMask)

/-- R54: exactly the opcode bytes outside R53 are reserved. -/
def Obligations.ReservedOpcodesAreThoseOutsideTheMap : Prop :=
  ∀ (op : Byte) (rest : List Byte), decode (op :: rest) = .rejected (.reservedOpcode op) ↔
    op ∉ [0x01#8, 0x02#8, 0x10#8, 0x11#8, 0x12#8, 0x13#8, 0x20#8, 0x21#8, 0x30#8, 0x31#8, 0x32#8, 0x33#8, 0x34#8]

/-- R53, R56: a few commands written out from the opcode map decode to the instructions they stand for. -/
def Obligations.SpecWordsDecode : Prop :=
  decode [0x01#8, 0x07#8] = .instr (.crcInit 0x07#8) ∧
  decode [0x10#8, 0x2C#8, 0x02#8, 0x12#8, 0x30#8] = .instr (.xferWr 0x2C#8 [0x12#8, 0x30#8]) ∧
  decode [0x12#8, 0x2C#8, 0x00#8, 0x12#8, 0x3F#8] = .instr (.regWr 0x2C#8 0x00123F#24) ∧
  decode [0x20#8, 0x01#8, 0xFF#8] = .instr (.csrWr 0x01#8 0xFF#8) ∧
  decode [0x30#8, 0x01#8, 0x03#8, 0x03#8, 0xE8#8] = .instr (.chWr 0x01#8 0x03#8 1000#16) ∧
  decode [0x34#8, 0x00#8, 0x80#8, 0x00#8, 0x00#8] = .instr (.scConv 0x00#8 0x800000#24)

/-! ### The step -/

/-- 00_scope.md R6, R11: a command given next and accepted by the decoder is run whole in one step, and is then gone. -/
def Obligations.StepRunsTheDecodedCommand : Prop :=
  ∀ (s : State) (bytes : List Byte) (rest : List Input) (i : Instr),
    s.inputs = .command bytes :: rest → decode bytes = .instr i → step s = exec i { s with inputs := rest }

/-- R6, R46, R47, R73: a plain transfer given next is run in one step whose first effect is the one of the wire form that
its instruction byte decodes to (log 5: the wire forms run inside transfers), and whose second is the data segment, with
release and the response. The bytes received come from the device (log 2). -/
def Obligations.StepRunsTheWireByte : Prop :=
  ∀ (s : State) (bytes : List Byte) (rest : List Input) (addr n : Byte) (data : List Byte),
    s.inputs = .command bytes :: rest → s.cfg.wf = true → s.crcEn = false →
    (decode bytes = .instr (.xferWr addr data) → LengthOk s.cfg data.length →
      ∃ (u : State) (rx : List Byte), rx.length = data.length ∧
        exec (decodeWire s.cfg (instrWr s.cfg addr)) { s with inputs := rest } = .next u ∧ u.csActive = true ∧
        step s = .next { u with
          csActive := false
          devRx := u.devRx.drop data.length
          bus := u.bus ++ [.seg data rx true]
          responses := u.responses ++ [⟨.ok, []⟩] }) ∧
    (decode bytes = .instr (.xferRd addr n) → LengthOk s.cfg n.toNat →
      ∃ (u : State) (rx : List Byte), rx.length = n.toNat ∧
        exec (decodeWire s.cfg (instrRd s.cfg addr)) { s with inputs := rest } = .next u ∧ u.csActive = true ∧
        step s = .next { u with
          csActive := false
          devRx := u.devRx.drop n.toNat
          bus := u.bus ++ [.seg (List.replicate n.toNat s.cfg.txFill) rx true]
          responses := u.responses ++ [⟨.ok, rx⟩] })

/-- R54, R52, R135: what is no command is answered with its status and has no effect. R144 has the block idle, holding its
state, between commands; that a step with nothing given stands for that is the model's choice, log 10. -/
def Obligations.StepAnswersWhatIsNoCommand : Prop :=
  (∀ s : State, s.inputs = [] → step s = .next s) ∧
  ∀ (s : State) (bytes : List Byte) (rest : List Input), s.inputs = .command bytes :: rest →
    (decode bytes = .rejected .empty → step s = refusedWith { s with inputs := rest } .invalidArgument) ∧
    (∀ op, decode bytes = .rejected (.reservedOpcode op) → step s = refusedWith { s with inputs := rest } .unsupported) ∧
    (∀ op, decode bytes = .rejected (.wrongLength op) →
      step s = refusedWith { s with inputs := rest } .invalidArgument)

/-- R145, R146, R26: a reset puts every piece of the block's state at its reset value, recomputes every channel, and
causes no bus activity. That the pending inputs, the device's answers and the responses given stay over it is the model's
choice, log 11. -/
def Obligations.ResetStepPutsResetValues : Prop :=
  ∀ (s : State) (rest : List Input), s.inputs = .reset :: rest →
    ∃ t, step s = .next t ∧ t.crc = none ∧ t.crcEn = false ∧ t.addrAsc = false ∧ t.singleInstr = false ∧
      t.streamKeep = false ∧ t.streamLen = 0#8 ∧ t.csActive = false ∧ t.ch.length = s.cfg.nCh ∧
      (∀ x ∈ t.ch, x.fast = 0 ∧ x.range = 0 ∧ x.override = 0 ∧ x.rfb = 0 ∧ x.gainP = 0 ∧ x.gainN = 0 ∧ x.goff = 0 ∧
        x.gpol = 0 ∧ x.derived = deriveChannel s.cfg x) ∧
      t.cfg = s.cfg ∧ t.bus = s.bus ∧ t.devRx = s.devRx ∧ t.responses = s.responses ∧ t.inputs = rest

/-- R26: the state after reset, for every parameter record: where the first range is `(0, 2500)` the derived numbers of
every channel are the ones R26 prints. (That `State.reset` takes the default record is the model's choice, log 1.) -/
def Obligations.StateAfterReset : Prop :=
  ∀ c : Config,
    (State.resetOf c).crc = none ∧ (State.resetOf c).tableValid = false ∧ (State.resetOf c).crcEn = false ∧
    (State.resetOf c).addrAsc = false ∧ (State.resetOf c).singleInstr = false ∧ (State.resetOf c).streamKeep = false ∧
    (State.resetOf c).streamLen = 0#8 ∧ (State.resetOf c).csActive = false ∧ (State.resetOf c).bus = [] ∧
    (State.resetOf c).cfg = c ∧ (State.resetOf c).ch.length = c.nCh ∧
    (∀ x ∈ (State.resetOf c).ch, x.fast = 0 ∧ x.range = 0 ∧ x.override = 0 ∧ x.rfb = 0 ∧ x.gainP = 0 ∧ x.gainN = 0 ∧
      x.goff = 0 ∧ x.gpol = 0 ∧ x.derived = deriveChannel c x) ∧
    (c.sourceValues = true → c.rangeTable[0]? = some ⟨0, 2500⟩ →
      ∀ x ∈ (State.resetOf c).ch, x.derived = some ⟨0, 38147, 0, 0⟩)

/-- The state after reset meets the invariants that every step keeps, for every parameter record that meets the
constraints of R4 and has a range (R13, R21, R23, R24); so does `State.reset`, whose record is the default one (log 1). -/
def Obligations.ResetMeetsTheInvariants : Prop :=
  (∀ c : Config, c.wf = true → c.rangeTable ≠ [] → (State.resetOf c).Inv ∧ (State.resetOf c).Quiet) ∧
  State.reset.Inv ∧ State.reset.Quiet

/-- R23, R13, R21: from every state that meets the invariant (the parameters' constraints, `N_CH` channels, every
channel's derived fields exactly what R114 computes from its inputs, legal inputs, a valid table that is the one of its
polynomial), a step leads to one that meets it. -/
def Obligations.StepKeepsTheInvariant : Prop :=
  ∀ s t : State, s.Inv → step s = .next t → t.Inv

/-- R24, R84, R160: chip select is released between commands. From a state where it is, a step leads to one where it is. -/
def Obligations.StepLeavesChipSelectReleased : Prop :=
  ∀ s t : State, s.Quiet → step s = .next t → t.Quiet

/-! ### Every command -/

/-- R6, R41, R148: every command ends, with exactly one response, takes nothing from the host's list, changes no parameter,
and only adds to the bus. That it ends rests on log 12: every segment ends, which 93_implementation_defined.md I19 lets a
model assume and R160 puts on the transport. -/
def Obligations.EveryCommandGivesOneResponse : Prop :=
  ∀ (i : Instr) (s : State), i.isCommand = true →
    ∃ t r, exec i s = .next t ∧ t.responses = s.responses ++ [r] ∧ t.inputs = s.inputs ∧ t.cfg = s.cfg ∧
      s.bus <+: t.bus

/-- R139, R84, R132, R133: a command that fails delivers no data and leaves the block as it was, chip select released if
it was; and unless the status is `BadMessage` the bus is as it was too. -/
def Obligations.FailingCommandIsPrecise : Prop :=
  ∀ (i : Instr) (s t : State) (r : Response), i.isCommand = true → exec i s = .next t →
    t.responses = s.responses ++ [r] → r.status ≠ .ok →
    r.result = [] ∧ SameBlock s t ∧ (s.csActive = false → t.csActive = false) ∧
    (r.status ≠ .badMessage → t = { s with responses := s.responses ++ [r] })

/-- R131, R136, R66: the statuses each command can end with. With CRC off no transfer ends with `NotReady` or
`BadMessage`. -/
def Obligations.StatusesOfEachCommand : Prop :=
  ∀ (i : Instr) (s t : State) (r : Response), i.isCommand = true → exec i s = .next t →
    t.responses = s.responses ++ [r] →
    r.status ∈ statuses i ∧
    (usesBus i = true → s.crcEn = false → r.status ≠ .notReady ∧ r.status ≠ .badMessage)

/-- R13, R14: only `CRC.INIT` writes the table, its polynomial and its validity. -/
def Obligations.OnlyCrcInitWritesTheTable : Prop :=
  ∀ (i : Instr) (s t : State), (∀ p, i ≠ .crcInit p) → exec i s = .next t → t.crc = s.crc

/-- R20: only `CSR.WR` changes `CRC_EN`, `ADDR_ASC`, `SINGLE_INSTR`, `STREAM_KEEP` or `STREAM_LEN`. -/
def Obligations.OnlyCsrWriteChangesTheConfiguration : Prop :=
  ∀ (i : Instr) (s t : State), (∀ r v, i ≠ .csrWr r v) → exec i s = .next t →
    t.crcEn = s.crcEn ∧ t.addrAsc = s.addrAsc ∧ t.singleInstr = s.singleInstr ∧ t.streamKeep = s.streamKeep ∧
    t.streamLen = s.streamLen

/-- R106, R115: only `CH.WR` changes a channel, and only the channel it names. -/
def Obligations.OnlyChannelWriteChangesAChannel : Prop :=
  (∀ (i : Instr) (s t : State), (∀ c f v, i ≠ .chWr c f v) → exec i s = .next t → t.ch = s.ch) ∧
  (∀ (c f : Byte) (v : BitVec 16) (s t : State), exec (.chWr c f v) s = .next t →
    t.ch.length = s.ch.length ∧ ∀ k, k ≠ c.toNat → t.ch[k]? = s.ch[k]?)

/-- R38, R105: the commands that are no transfers cause no bus activity. -/
def Obligations.OnlyTransfersUseTheBus : Prop :=
  ∀ (i : Instr) (s t : State), usesBus i = false → exec i s = .next t → SameBus s t

/-- R71, R72, R87, R88: a transfer changes nothing in the block. -/
def Obligations.TransfersLeaveTheBlockState : Prop :=
  ∀ (i : Instr) (s t : State), usesBus i = true → exec i s = .next t → SameBlock s t

/-! ### The CRC engine -/

/-- R64, R60: `CRC.INIT`, encoded as R64 says, answers `OK`, every entry of the new table is eight shift steps of its index, and only the
table, its polynomial and its validity change. -/
def Obligations.CrcInitBuildsTheTable : Prop :=
  ∀ (p : Byte) (s : State), decode [0x01#8, p] = .instr (.crcInit p) ∧ ∃ T : Vector Byte 256,
    exec (.crcInit p) s = .next { s with crc := some ⟨p, T⟩, responses := s.responses ++ [⟨.ok, []⟩] } ∧
    ∀ b : Byte, T[b.toNat]'b.isLt =
      (fun r : Byte => (r <<< 1) ^^^ (if r.getLsbD 7 = true then p else 0#8))^[8] b

/-- R65, R61: `CRC.CALC` answers the fold of the buffer under the table, or `NotReady` where there is none; its encoding
is refused where the length does not fit. -/
def Obligations.CrcCalcFoldsTheBuffer : Prop :=
  ∀ (seed n : Byte) (data : List Byte) (s : State),
    decode (0x02#8 :: seed :: n :: data) =
      (if data.length = n.toNat then .instr (.crcCalc seed data) else .rejected (.wrongLength 0x02#8)) ∧
    (∀ tb, s.crc = some tb → exec (.crcCalc seed data) s =
      answeredWith s [data.foldl (fun c b => tb.table[(c ^^^ b).toNat]'(c ^^^ b).isLt) seed]) ∧
    (s.crc = none → exec (.crcCalc seed data) s = refusedWith s .notReady)

/-- R63 item 1: the table is linear over XOR, its entry 0 is 0, its entry 1 is the polynomial, and polynomial 0 gives
zeros. -/
def Obligations.TableIsLinear : Prop :=
  ∀ p a b : Byte, tableAt (tblgen p) (a ^^^ b) = tableAt (tblgen p) a ^^^ tableAt (tblgen p) b ∧
    tableAt (tblgen p) 0#8 = 0#8 ∧ tableAt (tblgen p) 1#8 = p ∧ tableAt (tblgen 0#8) a = 0#8

/-- R63 items 2 and 3: the empty fold gives the seed, and a fold can be cut anywhere. -/
def Obligations.FoldCanBeCut : Prop :=
  ∀ (T : Vector Byte 256) (u v : List Byte) (seed : Byte),
    crc8 T [] seed = seed ∧ crc8 T (u ++ v) seed = crc8 T v (crc8 T u seed)

/-- The table-driven fold of R60 and R61 is the bit-serial CRC register over the message's bits, most significant bit of
each byte first. -/
def Obligations.FoldEqualsTheBitSerialRegister : Prop :=
  ∀ (p seed : Byte) (s : List Byte), crc8 (tblgen p) s seed = (bitsOf s).foldl (serialStep p) seed

/-- R63 item 4 and its use: a message followed by its own CRC folds to 0. -/
def Obligations.AppendedCrcFoldsToZero : Prop :=
  ∀ (p seed : Byte) (s : List Byte),
    crc8 (tblgen p) (s ++ [crc8 (tblgen p) s seed]) seed = 0#8 ∧
    ∀ x : Byte, crc8 (tblgen p) [x] seed = tableAt (tblgen p) (seed ^^^ x)

/-- With an odd polynomial a change of one byte of a message always changes the CRC, so the checks of R79 and R81 see
it. -/
def Obligations.OddPolynomialSeesEveryByteChange : Prop :=
  ∀ (p seed x y : Byte) (u v : List Byte), p.getLsbD 0 = true → x ≠ y →
    crc8 (tblgen p) (u ++ x :: v) seed ≠ crc8 (tblgen p) (u ++ y :: v) seed

/-! ### The framer -/

/-- R32: the width tiers. -/
def Obligations.RegisterWidthTiers : Prop :=
  ∀ (c : Config) (a : Byte), c.wf = true →
    (reglen c a = 0 ↔ c.addrMax.toNat < a.toNat) ∧
    (reglen c a = 3 ↔ c.t3Base.toNat ≤ a.toNat ∧ a.toNat ≤ c.addrMax.toNat) ∧
    (reglen c a = 2 ↔ c.t2Base.toNat ≤ a.toNat ∧ a.toNat < c.t3Base.toNat) ∧
    (reglen c a = 1 ↔ a.toNat < c.t2Base.toNat ∧ a.toNat ≤ c.addrMax.toNat)

/-- R76, R77: a transfer of `n` bytes has a plan exactly when the unbounded chunk sequence of R76 reaches offset `n`
through chunks of non-zero width that begin below `n`; the plan is then that part of the sequence. -/
def Obligations.PlanIsTheVisitSequence : Prop :=
  ∀ (c : Config) (asc : Bool) (L addr : Byte) (n : Nat) (plan : List Chunk), c.wf = true →
    (chunkPlan c asc L addr n = some plan ↔
      ∃ m, (visit c asc L addr m).1 = n ∧
        (∀ j < m, (visit c asc L addr j).1 < n ∧ reglen c (visitAddr c asc L addr j) ≠ 0) ∧
        plan = (List.range m).map fun j =>
          ⟨j, visitAddr c asc L addr j, reglen c (visitAddr c asc L addr j), (visit c asc L addr j).1⟩)

/-- R89 item 1: where every chunk is 1 byte wide, chunk `k` is at `addr` plus or minus `k mod L`, or `k` when stream
mode is off, modulo the address space. -/
def Obligations.StreamAddressesWrap : Prop :=
  ∀ (c : Config) (asc : Bool) (L addr : Byte) (n : Nat) (plan : List Chunk), c.wf = true →
    chunkPlan c asc L addr n = some plan → (∀ ck ∈ plan, ck.width = 1) →
    ∀ (k : Nat) (h : k < plan.length),
      plan[k].addr = BitVec.ofInt 8 ((addr.toNat +
        (if asc then (1 : Int) else -1) * (if L = 0#8 then (k : Int) else ((k % L.toNat : Nat) : Int))) % c.addrSpace)

/-- R73, R47, R71: a plain write is two segments, instruction byte with chip select held and data with release, and
answers `OK` whatever the device answers. The bytes received leave the device's script (log 2). -/
def Obligations.PlainWriteSendsTwoSegments : Prop :=
  ∀ (addr : Byte) (data : List Byte) (s : State), s.crcEn = false → LengthOk s.cfg data.length →
    ∃ rx1 rx2 : List Byte, rx1.length = 1 ∧ rx2.length = data.length ∧
      exec (.xferWr addr data) s = .next { s with
        csActive := false
        devRx := s.devRx.drop (1 + data.length)
        bus := s.bus ++ [.seg [instrWr s.cfg addr] rx1 false, .seg data rx2 true]
        responses := s.responses ++ [⟨.ok, []⟩] }

/-- R73, R47, R72: a plain read answers `OK` with the bytes of its second segment, unchecked; they are the ones the
device has ready, where it has that many (log 2: the device's script is the model's own). -/
def Obligations.PlainReadReturnsTheSecondSegment : Prop :=
  ∀ (addr n : Byte) (s : State), s.crcEn = false → LengthOk s.cfg n.toNat →
    ∃ rx1 rx2 : List Byte, rx1.length = 1 ∧ rx2.length = n.toNat ∧
      exec (.xferRd addr n) s = .next { s with
        csActive := false
        devRx := s.devRx.drop (1 + n.toNat)
        bus := s.bus ++ [.seg [instrRd s.cfg addr] rx1 false, .seg (List.replicate n.toNat s.cfg.txFill) rx2 true]
        responses := s.responses ++ [⟨.ok, rx2⟩] } ∧
      (1 + n.toNat ≤ s.devRx.length → rx2 = (s.devRx.drop 1).take n.toNat)

/-- R85, R74, R75, R77: the checks of a transfer, in their order, each before any bus activity. -/
def Obligations.TransferChecksComeBeforeTheBus : Prop :=
  ∀ (addr n : Byte) (data : List Byte) (s : State),
    (¬ LengthOk s.cfg data.length → exec (.xferWr addr data) s = refusedWith s .invalidArgument) ∧
    (LengthOk s.cfg data.length → s.crcEn = true → chunkPlan s.cfg s.addrAsc s.streamLen addr data.length = none →
      exec (.xferWr addr data) s = refusedWith s .invalidArgument) ∧
    (LengthOk s.cfg data.length → s.crcEn = true → chunkPlan s.cfg s.addrAsc s.streamLen addr data.length ≠ none →
      s.crc = none → exec (.xferWr addr data) s = refusedWith s .notReady) ∧
    (¬ LengthOk s.cfg n.toNat → exec (.xferRd addr n) s = refusedWith s .invalidArgument) ∧
    (LengthOk s.cfg n.toNat → s.crcEn = true → chunkPlan s.cfg s.addrAsc s.streamLen addr n.toNat = none →
      exec (.xferRd addr n) s = refusedWith s .invalidArgument) ∧
    (LengthOk s.cfg n.toNat → s.crcEn = true → chunkPlan s.cfg s.addrAsc s.streamLen addr n.toNat ≠ none →
      s.crc = none → exec (.xferRd addr n) s = refusedWith s .notReady)

/-- R78, R79, R82, R84: a CRC-secured write sends the planned chunks in order, release on the last only. It answers `OK`
exactly when every chunk's last received byte is the CRC byte sent; else it stops behind the first chunk where it is
not, answers `BadMessage`, and releases chip select where that chunk held it. The bytes received are those the device has
ready, as far as it has them (the clauses on `devRx` rest on log 2: the device's script is the model's own). Nothing else
changes. -/
def Obligations.CrcWriteSendsThePlannedChunks : Prop :=
  ∀ (addr : Byte) (data : List Byte) (s : State) (tb : CrcTable) (plan : List Chunk),
    s.crcEn = true → LengthOk s.cfg data.length → s.crc = some tb →
    chunkPlan s.cfg s.addrAsc s.streamLen addr data.length = some plan →
    let txs := plan.map (chunkOut s.cfg tb.table (instrWr s.cfg addr) data)
    ∃ rxs : List (List Byte),
      (∀ j < rxs.length, (rxs.getD j []).length = (txs.getD j []).length) ∧
      rxs.flatten.take s.devRx.length = s.devRx.take rxs.flatten.length ∧
      ((rxs.length = plan.length ∧ (∀ j < plan.length, (rxs.getD j []).getLast? = (txs.getD j []).getLast?) ∧
        exec (.xferWr addr data) s = .next { s with
          csActive := false
          devRx := s.devRx.drop rxs.flatten.length
          bus := s.bus ++ segments txs rxs
          responses := s.responses ++ [⟨.ok, []⟩] }) ∨
      (∃ m, rxs.length = m + 1 ∧ m < plan.length ∧
        (∀ j < m, (rxs.getD j []).getLast? = (txs.getD j []).getLast?) ∧
        (rxs.getD m []).getLast? ≠ (txs.getD m []).getLast? ∧
        exec (.xferWr addr data) s = .next { s with
          csActive := false
          devRx := s.devRx.drop rxs.flatten.length
          bus := s.bus ++ segments txs rxs ++ (if m + 1 = plan.length then [] else [.csRelease])
          responses := s.responses ++ [⟨.badMessage, []⟩] }))

/-- R80, R81, R82, R84: a CRC-secured read sends the planned chunks in order. Only the first chunk's CRC byte is checked:
where it matches, the read answers `OK` with the register bytes of all chunks, the later ones unchecked; where it does
not, the read stops behind the first chunk and answers `BadMessage` with no data. The clauses on `devRx` rest on log 2: the
device's script is the model's own. -/
def Obligations.CrcReadChecksTheFirstChunkOnly : Prop :=
  ∀ (addr n : Byte) (s : State) (tb : CrcTable) (plan : List Chunk),
    s.crcEn = true → LengthOk s.cfg n.toNat → s.crc = some tb →
    chunkPlan s.cfg s.addrAsc s.streamLen addr n.toNat = some plan →
    let txs := plan.map (chunkFill s.cfg (instrRd s.cfg addr))
    ∃ (first : Chunk) (rxs : List (List Byte)), plan.head? = some first ∧
      (∀ j < rxs.length, (rxs.getD j []).length = (txs.getD j []).length) ∧
      rxs.flatten.take s.devRx.length = s.devRx.take rxs.flatten.length ∧
      ((rxs.length = plan.length ∧ FirstPasses s.cfg tb.table (instrRd s.cfg addr) first (rxs.getD 0 []) ∧
        exec (.xferRd addr n) s = .next { s with
          csActive := false
          devRx := s.devRx.drop rxs.flatten.length
          bus := s.bus ++ segments txs rxs
          responses := s.responses ++ [⟨.ok, (List.zipWith chunkIn plan rxs).flatten⟩] }) ∨
      (rxs.length = 1 ∧ ¬ FirstPasses s.cfg tb.table (instrRd s.cfg addr) first (rxs.getD 0 []) ∧
        exec (.xferRd addr n) s = .next { s with
          csActive := false
          devRx := s.devRx.drop rxs.flatten.length
          bus := s.bus ++ segments txs rxs ++ (if plan.length = 1 then [] else [.csRelease])
          responses := s.responses ++ [⟨.badMessage, []⟩] }))

/-- The bytes the device has ready are the ones it answers (log 2): in a CRC-secured write of one register the device's last
byte alone decides the status (R78, R79). -/
def Obligations.SingleChunkWriteGoesByTheEcho : Prop :=
  ∀ (addr : Byte) (data rx more : List Byte) (s : State) (tb : CrcTable) (e : Byte),
    s.crcEn = true → LengthOk s.cfg data.length → s.crc = some tb →
    chunkPlan s.cfg s.addrAsc s.streamLen addr data.length = some [⟨0, addr, data.length, 0⟩] →
    s.devRx = rx ++ e :: more → rx.length = data.length + 1 →
    let c := crc8 tb.table (instrWr s.cfg addr :: data) s.cfg.crcSeed
    exec (.xferWr addr data) s = .next { s with
      csActive := false
      devRx := more
      bus := s.bus ++ [.seg (instrWr s.cfg addr :: data ++ [c]) (rx ++ [e]) true]
      responses := s.responses ++ [⟨if e = c then .ok else .badMessage, []⟩] }

/-- R87, R34: an accepted `REG.WR` is the write transfer of the register's bytes, most significant first, masked with
`DAC16_MASK` when the register has 2 bytes, the bits above the register's width dropped; with CRC off it completes as
its two segments The bytes received leave the device's script (log 2). -/
def Obligations.RegisterWriteIsAMaskedTransfer : Prop :=
  ∀ (addr : Byte) (value : BitVec 24) (s : State),
    reglen s.cfg addr ≠ 0 → ¬ (s.cfg.secBase.toNat ≤ addr.toNat ∧ s.addrAsc = true) →
    let m := value.setWidth 16 &&& s.cfg.dac16Mask
    let data : List Byte :=
      if reglen s.cfg addr = 1 then [value.extractLsb' 0 8]
      else if reglen s.cfg addr = 2 then [m.extractLsb' 8 8, m.extractLsb' 0 8]
      else [value.extractLsb' 16 8, value.extractLsb' 8 8, value.extractLsb' 0 8]
    exec (.regWr addr value) s = exec (.xferWr addr data) s ∧
    (s.crcEn = false → LengthOk s.cfg data.length →
      ∃ rx1 rx2 : List Byte, rx1.length = 1 ∧ rx2.length = data.length ∧
        exec (.regWr addr value) s = .next { s with
          csActive := false
          devRx := s.devRx.drop (1 + data.length)
          bus := s.bus ++ [.seg [instrWr s.cfg addr] rx1 false, .seg data rx2 true]
          responses := s.responses ++ [⟨.ok, []⟩] })

/-- R88, R34: an accepted `REG.RD` is the read transfer of the register's width; on `OK` it answers the bytes as a
24-bit value, zero-extended, masked with `DAC16_MASK` when the register has 2 bytes; else it answers as the transfer.
With CRC off it completes The bytes received leave the device's script (log 2). -/
def Obligations.RegisterReadIsAMaskedTransfer : Prop :=
  ∀ (addr : Byte) (s : State),
    reglen s.cfg addr ≠ 0 → ¬ (s.cfg.secBase.toNat ≤ addr.toNat ∧ s.addrAsc = true) →
    let value : List Byte → List Byte := fun bytes =>
      match bytes with
      | [b0] => [0#8, 0#8, b0]
      | [b1, b0] => [0#8, b1 &&& s.cfg.dac16Mask.extractLsb' 8 8, b0 &&& s.cfg.dac16Mask.extractLsb' 0 8]
      | other => other
    (∃ (t : State) (r : Response), exec (.xferRd addr (BitVec.ofNat 8 (reglen s.cfg addr))) s =
        .next { t with responses := s.responses ++ [r] } ∧
      exec (.regRd addr) s = .next { t with responses := s.responses ++
        [if r.status = .ok then ⟨.ok, value r.result⟩ else r] }) ∧
    (s.crcEn = false → LengthOk s.cfg (reglen s.cfg addr) →
      ∃ rx1 rx2 : List Byte, rx1.length = 1 ∧ rx2.length = reglen s.cfg addr ∧
        exec (.regRd addr) s = .next { s with
          csActive := false
          devRx := s.devRx.drop (1 + reglen s.cfg addr)
          bus := s.bus ++ [.seg [instrRd s.cfg addr] rx1 false,
            .seg (List.replicate (reglen s.cfg addr) s.cfg.txFill) rx2 true]
          responses := s.responses ++ [⟨.ok, value rx2⟩] })

/-- R86: a register of width 0, or one in the secondary region while ascending, is refused before any bus activity,
whatever `CRC_EN` is. -/
def Obligations.RegisterChecksRefuse : Prop :=
  ∀ (addr : Byte) (value : BitVec 24) (s : State),
    reglen s.cfg addr = 0 ∨ (s.cfg.secBase.toNat ≤ addr.toNat ∧ s.addrAsc = true) →
    exec (.regWr addr value) s = refusedWith s .invalidArgument ∧
    exec (.regRd addr) s = refusedWith s .invalidArgument

/-- R87 (corner cases): the transfer of one register has exactly one chunk, at the register itself where the address is
inside the address space, in either direction and stream mode. -/
def Obligations.OneRegisterIsOneChunk : Prop :=
  ∀ (c : Config) (asc : Bool) (L addr : Byte), reglen c addr ≠ 0 → addr.toNat < c.addrSpace →
    chunkPlan c asc L addr (reglen c addr) = some [⟨0, addr, reglen c addr, 0⟩]

/-- R46, R47, R73: a wire instruction byte goes out as one segment of one byte with chip select held, and gives no response
of its own: it is segment 1 of a plain frame (log 5), and the device's answer to it leaves the script (log 2). -/
def Obligations.WireByteGoesOut : Prop :=
  ∀ (addr : Byte) (s : State), ∃ rx1 rx2 : List Byte, rx1.length = 1 ∧ rx2.length = 1 ∧
    exec (.wireWr addr) s = .next { s with
      csActive := true
      devRx := s.devRx.drop 1
      bus := s.bus ++ [.seg [instrWr s.cfg addr] rx1 false] } ∧
    exec (.wireRd addr) s = .next { s with
      csActive := true
      devRx := s.devRx.drop 1
      bus := s.bus ++ [.seg [instrRd s.cfg addr] rx2 false] }

/-! ### Control registers -/

/-- R97, R96: `CSR.WR` sets the writable fields of CSR 0, 1 or 2 and nothing else; every other number is refused. -/
def Obligations.CsrWriteSetsTheFields : Prop :=
  ∀ (csr v : Byte) (s : State), decode [0x20#8, csr, v] = .instr (.csrWr csr v) ∧
    (csr.toNat = 0 → exec (.csrWr csr v) s =
      answeredWith { s with crcEn := v.getLsbD 0 } []) ∧
    (csr.toNat = 1 → exec (.csrWr csr v) s =
      answeredWith { s with addrAsc := v.getLsbD 0, singleInstr := v.getLsbD 1, streamKeep := v.getLsbD 2 } []) ∧
    (csr.toNat = 2 → exec (.csrWr csr v) s = answeredWith { s with streamLen := v } []) ∧
    (3 ≤ csr.toNat → exec (.csrWr csr v) s = refusedWith s .invalidArgument)

/-- R98, R15 to R19: `CSR.RD` answers the register, reserved bits 0; `POLYR` is `NotReady` while there is no table; other
numbers are refused. -/
def Obligations.CsrReadAnswersTheRegister : Prop :=
  ∀ (csr : Byte) (s : State), decode [0x21#8, csr] = .instr (.csrRd csr) ∧
    (csr.toNat = 0 → exec (.csrRd csr) s = answeredWith s [if s.crcEn then 0x01#8 else 0x00#8]) ∧
    (csr.toNat = 1 → ∃ b : Byte, exec (.csrRd csr) s = answeredWith s [b] ∧
      b.getLsbD 0 = s.addrAsc ∧ b.getLsbD 1 = s.singleInstr ∧ b.getLsbD 2 = s.streamKeep ∧ b &&& 0xF8#8 = 0x00#8) ∧
    (csr.toNat = 2 → exec (.csrRd csr) s = answeredWith s [s.streamLen]) ∧
    (csr.toNat = 3 → exec (.csrRd csr) s = answeredWith s [if s.crc = none then 0x00#8 else 0x01#8]) ∧
    (csr.toNat = 4 → ∀ tb, s.crc = some tb → exec (.csrRd csr) s = answeredWith s [tb.poly]) ∧
    (csr.toNat = 4 → s.crc = none → exec (.csrRd csr) s = refusedWith s .notReady) ∧
    (5 ≤ csr.toNat → exec (.csrRd csr) s = refusedWith s .invalidArgument)

/-- R96, R97, R98: a read-write CSR reads back as what was written under its mask. -/
def Obligations.CsrReadsBackUnderItsMask : Prop :=
  ∀ (csr v : Byte) (s : State), csr.toNat ≤ 2 →
    ∃ t, exec (.csrWr csr v) s = .next t ∧ exec (.csrRd csr) t = answeredWith t [v &&& wmask csr.toNat]

/-! ### The scaler -/

/-- R106, R21: `CH.WR` of a legal value to an input field of an existing channel answers `OK`, writes the field and, for
fields 1 to 7, recomputes the channel's derived numbers in the same step; everything else is as it was. Any other `CH.WR`
is refused. -/
def Obligations.ChannelWriteResult : Prop :=
  ∀ (c f : Byte) (v : BitVec 16) (s : State),
    decode [0x30#8, c, f, v.extractLsb' 8 8, v.extractLsb' 0 8] = .instr (.chWr c f v) ∧
    (∀ old, c.toNat < s.cfg.nCh → f.toNat ≤ 7 → legal s.cfg f.toNat v.toNat → s.ch[c.toNat]? = some old →
      exec (.chWr c f v) s =
        answeredWith { s with ch := s.ch.set c.toNat (channelWritten s.cfg old f.toNat v) } []) ∧
    (s.cfg.nCh ≤ c.toNat ∨ 8 ≤ f.toNat ∨ ¬ legal s.cfg f.toNat v.toNat →
      exec (.chWr c f v) s = refusedWith s .invalidArgument)

/-- R107: `CH.RD` answers the field of an existing channel, zero-extended to 16 bits, most significant byte first; any
other `CH.RD` is refused. -/
def Obligations.ChannelReadResult : Prop :=
  ∀ (c f : Byte) (s : State), decode [0x31#8, c, f] = .instr (.chRd c f) ∧
    (∀ x, c.toNat < s.cfg.nCh → f.toNat ≤ 8 → s.ch[c.toNat]? = some x →
      exec (.chRd c f) s = answeredWith s
        [(fieldValue x f.toNat).extractLsb' 8 8, (fieldValue x f.toNat).extractLsb' 0 8]) ∧
    (s.cfg.nCh ≤ c.toNat ∨ 9 ≤ f.toNat → exec (.chRd c f) s = refusedWith s .invalidArgument)

/-- R106, R107, R21: a field reads back as the value that `CH.WR` stored. -/
def Obligations.ChannelFieldReadsBack : Prop :=
  ∀ (c f : Byte) (v : BitVec 16) (s : State), s.cfg.wf = true → c.toNat < s.cfg.nCh → s.ch.length = s.cfg.nCh →
    f.toNat ≤ 7 → legal s.cfg f.toNat v.toNat →
    ∃ t, exec (.chWr c f v) s = .next t ∧
      exec (.chRd c f) t = answeredWith t [v.extractLsb' 8 8, v.extractLsb' 0 8]

/-- R118: `SC.SCALE` answers the scale pair, 8 and 4 signed bytes, or `NotReady`, or refuses the channel. -/
def Obligations.ScaleReadOut : Prop :=
  ∀ (c : Byte) (s : State), decode [0x32#8, c] = .instr (.scScale c) ∧
    (∀ x d, c.toNat < s.cfg.nCh → s.ch[c.toNat]? = some x → x.derived = some d →
      exec (.scScale c) s = answeredWith s (beSigned 8 d.scaleInt ++ beSigned 4 d.scaleFrac)) ∧
    (∀ x, c.toNat < s.cfg.nCh → s.ch[c.toNat]? = some x → x.derived = none →
      exec (.scScale c) s = refusedWith s .notReady) ∧
    (s.cfg.nCh ≤ c.toNat → exec (.scScale c) s = refusedWith s .invalidArgument)

/-- R119: `SC.OFFSET` answers the offset pair. -/
def Obligations.OffsetReadOut : Prop :=
  ∀ (c : Byte) (s : State), decode [0x33#8, c] = .instr (.scOffset c) ∧
    (∀ x d, c.toNat < s.cfg.nCh → s.ch[c.toNat]? = some x → x.derived = some d →
      exec (.scOffset c) s = answeredWith s (beSigned 8 d.offsetInt ++ beSigned 4 d.offsetFrac)) ∧
    (∀ x, c.toNat < s.cfg.nCh → s.ch[c.toNat]? = some x → x.derived = none →
      exec (.scOffset c) s = refusedWith s .notReady) ∧
    (s.cfg.nCh ≤ c.toNat → exec (.scOffset c) s = refusedWith s .invalidArgument)

/-- R120, R116: `SC.CONV` answers `(D * MICRO + O) * S` truncated to micro-millivolts, as millivolts and millionths; a
channel that does not exist is refused, and too wide an image in fast mode too, before the validity is looked at. The
divisions are R120's for every `MICRO` but 0, where 00_scope.md section 6 defines none: there quotient 0 and remainder the
dividend are the model's choice, log 21. -/
def Obligations.ConversionResult : Prop :=
  ∀ (c : Byte) (image : BitVec 24) (s : State),
    decode [0x34#8, c, image.extractLsb' 16 8, image.extractLsb' 8 8, image.extractLsb' 0 8] = .instr (.scConv c image) ∧
    (∀ x d, c.toNat < s.cfg.nCh → s.ch[c.toNat]? = some x → (x.fast = 0#1 ∨ image.toNat < 0x010000) →
      x.derived = some d →
      let D : Int := if x.fast = 1#1 then (image.extractLsb' 0 16 &&& s.cfg.dac16Mask).toNat
        else (image.extractLsb' 8 16).toNat
      let S := d.scaleInt * s.cfg.micro + d.scaleFrac
      let O := d.offsetInt * s.cfg.micro + d.offsetFrac
      let m := Int.tdiv ((D * s.cfg.micro + O) * S) s.cfg.micro
      exec (.scConv c image) s =
        answeredWith s (beSigned 8 (Int.tdiv m s.cfg.micro) ++ beSigned 4 (Int.tmod m s.cfg.micro))) ∧
    (∀ x, c.toNat < s.cfg.nCh → s.ch[c.toNat]? = some x → (x.fast = 0#1 ∨ image.toNat < 0x010000) → x.derived = none →
      exec (.scConv c image) s = refusedWith s .notReady) ∧
    (∀ x, c.toNat < s.cfg.nCh → s.ch[c.toNat]? = some x → x.fast = 1#1 → 0x010000 ≤ image.toNat →
      exec (.scConv c image) s = refusedWith s .invalidArgument) ∧
    (s.cfg.nCh ≤ c.toNat → exec (.scConv c image) s = refusedWith s .invalidArgument)

/-- R116: in precision mode the lowest byte of the image has no effect; in fast mode the bits that `DAC16_MASK` clears
have none. -/
def Obligations.IgnoredImageBits : Prop :=
  ∀ (c : Byte) (a b : BitVec 24) (s : State) (x : Channel), s.ch[c.toNat]? = some x → c.toNat < s.cfg.nCh →
    (x.fast = 0#1 ∧ a.extractLsb' 8 16 = b.extractLsb' 8 16 ∨
      x.fast = 1#1 ∧ a.toNat < 0x010000 ∧ b.toNat < 0x010000 ∧
        a.extractLsb' 0 16 &&& s.cfg.dac16Mask = b.extractLsb' 0 16 &&& s.cfg.dac16Mask) →
    exec (.scConv c a) s = exec (.scConv c b) s

/-- R114, R123: the scale pair is the span over 65536 in millionths, rounded to nearest with ties up; its fraction never
carries. -/
def Obligations.ScaleIsRoundedToNearest : Prop :=
  ∀ (c : Config) (r : Range), c.sourceValues = true → r.vMin < r.vMax →
    let d := derivedOf c r
    let S := d.scaleInt * 1000000 + d.scaleFrac
    S * 65536 ≤ (r.vMax - r.vMin) * 1000000 + 32768 ∧ (r.vMax - r.vMin) * 1000000 + 32768 < (S + 1) * 65536 ∧
    0 ≤ d.scaleInt ∧ 0 ≤ d.scaleFrac ∧ d.scaleFrac ≤ 999985

/-- R114, R117, R123: the offset pair is `v_min * 65536 / span` in millionths, truncated toward zero, both parts with the
sign of `v_min` or zero. -/
def Obligations.OffsetIsTruncated : Prop :=
  ∀ (c : Config) (r : Range), c.sourceValues = true → r.vMin < r.vMax →
    let d := derivedOf c r
    d.offsetInt * 1000000 + d.offsetFrac = Int.tdiv (r.vMin * 65536 * 1000000) (r.vMax - r.vMin) ∧
    (0 ≤ r.vMin → 0 ≤ d.offsetInt ∧ 0 ≤ d.offsetFrac) ∧
    (r.vMin ≤ 0 → d.offsetInt ≤ 0 ∧ d.offsetFrac ≤ 0) ∧
    -1000000 < d.offsetFrac ∧ d.offsetFrac < 1000000

/-- R108, R113, R114: a channel has derived numbers exactly when its source gives a range with a positive span, and they
are then those of the range. That a `RANGE` which is neither in the table nor `RANGE_CUSTOM` (the reset value, with an empty
`RANGE_TABLE`) gives no range is the model's choice, log 22; so are the numbers of a record with `CODE_SPAN = 0`, log 21. -/
def Obligations.DerivedExactlyWhenSpanIsPositive : Prop :=
  ∀ (c : Config) (x : Channel) (d : Derived), c.wf = true →
    (deriveChannel c x = some d ↔
      ∃ r, (x.override = 1#1 ∧ r = customRange c x ∨
          x.override = 0#1 ∧ ∃ h : x.range.toNat < c.rangeTable.length, r = c.rangeTable[x.range.toNat]) ∧
        r.vMin < r.vMax ∧ d = derivedOf c r) ∧
    (x.override = 0#1 → x.range = c.rangeCustom → deriveChannel c x = none)

/-- R111, R110: the custom range, with the gain factors 1000, 500, 250, 125 and the reference values of the source:
`v_max` from `GAIN_N`, `v_min` from `GAIN_P`, divisions truncated toward zero. -/
def Obligations.CustomRangeFormula : Prop :=
  ∀ (c : Config) (x : Channel), c.sourceValues = true →
    let gp : Int := 1000 / 2 ^ x.gainP.toNat
    let gn : Int := 1000 / 2 ^ x.gainN.toNat
    let off : Int := if x.gpol = 1#1 then -(x.goff.toNat : Int) else x.goff.toNat
    (customRange c x).vMax = 2500 + Int.tdiv ((1024 * gn + 1000 * off) * 2575 * x.rfb.toNat) 1024000000 ∧
    (customRange c x).vMin = 2500 - Int.tdiv ((1024 * gp - 1000 * off) * 2575 * x.rfb.toNat) 1024000000 ∧
    (x.goff = 0 → x.gainP = x.gainN → (customRange c x).vMin + (customRange c x).vMax = 5000)

/-- R22, R122: with the source's values and a table of 32-bit millivolts the derived numbers fit the widths of R22, and
the millivolts of every code fit 64 bits. -/
def Obligations.DerivedNumbersFitTheirWidths : Prop :=
  ∀ (c : Config) (x : Channel) (d : Derived) (code : BitVec 16), c.wf = true → c.sourceValues = true →
    deriveChannel c x = some d →
    (0 ≤ d.scaleInt ∧ d.scaleInt < 2 ^ 16) ∧ (0 ≤ d.scaleFrac ∧ d.scaleFrac < 1000000) ∧
    (-2 ^ 47 ≤ d.offsetInt ∧ d.offsetInt ≤ 2 ^ 47) ∧ (-1000000 < d.offsetFrac ∧ d.offsetFrac < 1000000) ∧
    (-2 ^ 63 ≤ Int.tdiv (convertCode c d code) 1000000 ∧ Int.tdiv (convertCode c d code) 1000000 < 2 ^ 63)

/-- R52, R118: a signed result field reads back as the number, for every number of its width. -/
def Obligations.SignedFieldsReadBack : Prop :=
  (∀ z : Int, -2 ^ 63 ≤ z → z < 2 ^ 63 →
    (beSigned 8 z).length = 8 ∧ (BitVec.ofNat 64 (unbe (beSigned 8 z))).toInt = z) ∧
  (∀ z : Int, -2 ^ 31 ≤ z → z < 2 ^ 31 →
    (beSigned 4 z).length = 4 ∧ (BitVec.ofNat 32 (unbe (beSigned 4 z))).toInt = z)

/-- R113, R158: enabling the override while the feedback resistance is 0 is accepted and leaves the channel without
derived numbers, so that its read-outs answer `NotReady`. -/
def Obligations.OverrideWithoutResistanceInvalidates : Prop :=
  ∀ (c : Byte) (s : State) (x : Channel) (image : BitVec 24), c.toNat < s.cfg.nCh → s.ch[c.toNat]? = some x →
    x.rfb = 0 → (x.fast = 0#1 ∨ image.toNat < 0x010000) →
    ∃ t, exec (.chWr c 2#8 1#16) s = .next t ∧ t.responses = s.responses ++ [⟨.ok, []⟩] ∧
      exec (.chRd c 8#8) t = answeredWith t [0#8, 0#8] ∧
      exec (.scScale c) t = refusedWith t .notReady ∧ exec (.scOffset c) t = refusedWith t .notReady ∧
      exec (.scConv c image) t = refusedWith t .notReady

/-- R57, R115: the six commands that `SC.CUSTOM` stands for all answer `OK` for legal values and leave the channel with
those inputs and the derived numbers of them; no other channel changes and nothing goes on the bus. -/
def Obligations.CustomSequenceSetsTheChannel : Prop :=
  ∀ (c : Byte) (pol goff gp gn rfb : BitVec 16) (s : State) (x : Channel),
    c.toNat < s.cfg.nCh → s.ch[c.toNat]? = some x → pol.toNat ≤ 1 → gp.toNat ≤ 3 → gn.toNat ≤ 3 →
    let inputs : Channel := { x with
      override := 1, gpol := pol.setWidth 1, goff := goff, gainP := gp.setWidth 2, gainN := gn.setWidth 2, rfb := rfb }
    runList (Pseudo.scCustom c pol goff gp gn rfb).expand s = .next { s with
      ch := s.ch.set c.toNat { inputs with derived := deriveChannel s.cfg inputs }
      responses := s.responses ++ List.replicate 6 ⟨.ok, []⟩ }
end

