-- ==== Sys2Proof/Laws/Bytes.lean ====
section
/-! SUPPORT. Laws of byte sequences: `be_N` and `unbe` are inverse, and their lengths. -/

namespace Sys2Proof.Machine

@[simp] theorem beBytes_length (n v : Nat) : (beBytes n v).length = n := by
  induction n with
  | zero => rfl
  | succ n ih => simp [beBytes, ih]

@[simp] theorem pairBytes_length (a b : Int) : (pairBytes a b).length = 12 := by
  simp [pairBytes, beSigned]

theorem foldl_unbe (s : List Byte) (a : Nat) :
    s.foldl (fun acc b => acc * 256 + b.toNat) a = a * 256 ^ s.length + unbe s := by
  unfold unbe
  induction s generalizing a with
  | nil => simp
  | cons b s ih =>
    rw [List.foldl_cons, List.foldl_cons, ih, ih (0 * 256 + b.toNat)]
    simp only [List.length_cons, pow_succ]
    ring

@[simp] theorem unbe_nil : unbe [] = 0 := rfl

theorem unbe_cons (b : Byte) (s : List Byte) : unbe (b :: s) = b.toNat * 256 ^ s.length + unbe s := by
  have h := foldl_unbe s (0 * 256 + b.toNat)
  simpa [unbe] using h

/-- `unbe` of a sequence is below `256` to its length. -/
theorem unbe_lt (s : List Byte) : unbe s < 256 ^ s.length := by
  induction s with
  | nil => simp
  | cons b s ih =>
    rw [unbe_cons, List.length_cons, pow_succ]
    have hb : b.toNat + 1 ≤ 256 := b.isLt
    calc b.toNat * 256 ^ s.length + unbe s < (b.toNat + 1) * 256 ^ s.length := by rw [Nat.add_mul]; omega
      _ ≤ 256 ^ s.length * 256 := by rw [Nat.mul_comm _ 256]; exact Nat.mul_le_mul_right _ hb

/-- Reading back what `be_N` writes keeps the low `8N` bits. -/
theorem unbe_beBytes (n v : Nat) : unbe (beBytes n v) = v % 256 ^ n := by
  induction n with
  | zero => simp [beBytes, Nat.mod_one]
  | succ n ih =>
    rw [beBytes, unbe_cons, ih, beBytes_length, BitVec.toNat_ofNat, pow_succ 256 n, Nat.mod_mul (x := v) (a := 256 ^ n) (b := 256)]
    simp only [Nat.reducePow]
    ring

/-- `be_N` depends on the low `8N` bits only. -/
theorem beBytes_mod (n k v : Nat) (h : n ≤ k) : beBytes n (v % 256 ^ k) = beBytes n v := by
  induction n with
  | zero => rfl
  | succ n ih =>
    rw [beBytes, beBytes, ih (by omega)]
    congr 1
    apply BitVec.eq_of_toNat_eq
    simp only [BitVec.toNat_ofNat]
    obtain ⟨d, rfl⟩ := Nat.exists_eq_add_of_le h
    have : (256 : Nat) ^ (n + 1 + d) = 256 ^ n * (256 * 256 ^ d) := by ring
    rw [this, Nat.mod_mul_right_div_self]
    simp only [Nat.reducePow]
    rw [Nat.mod_mul_right_mod]

/-- Writing back what `unbe` reads gives the sequence. -/
theorem beBytes_unbe (s : List Byte) : beBytes s.length (unbe s) = s := by
  induction s with
  | nil => rfl
  | cons b s ih =>
    have hlt := unbe_lt s
    have hpos : 0 < 256 ^ s.length := by positivity
    rw [List.length_cons, beBytes, unbe_cons]
    congr 1
    · rw [Nat.mul_comm, Nat.mul_add_div hpos, Nat.div_eq_of_lt hlt]
      simp
    · conv_rhs => rw [← ih]
      rw [← beBytes_mod s.length s.length _ le_rfl, Nat.mul_add_mod_self_right, Nat.mod_eq_of_lt hlt]

end Sys2Proof.Machine
end

