-- ==== Sys2Proof/Laws/Crc.lean ====
section
/-! SUPPORT. Laws of the CRC functions (spec/40_crc.md R60 to R62): one equation per function. -/

namespace Sys2Proof.Machine

/-- An entry of a generated table is the eight shift steps of its index (R60). -/
@[simp] theorem tableAt_tblgen (p b : Byte) : tableAt (tblgen p) b = tblEntry p b := by
  simp [tableAt, tblgen]

@[simp] theorem crc8_nil (T : Vector Byte 256) (seed : Byte) : crc8 T [] seed = seed := rfl

@[simp] theorem crc8_cons (T : Vector Byte 256) (b : Byte) (s : List Byte) (seed : Byte) :
    crc8 T (b :: s) seed = crc8 T s (tableAt T (seed ^^^ b)) := rfl

@[simp] theorem chainSeed_zero (c : Config) (T : Vector Byte 256) (instr a : Byte) :
    chainSeed c T 0 instr a = tableAt T (c.crcSeed ^^^ instr) := rfl

@[simp] theorem chainSeed_succ (c : Config) (T : Vector Byte 256) (k : Nat) (instr a : Byte) :
    chainSeed c T (k + 1) instr a = a := rfl

/-- One shift step is linear over XOR in the register (R60). -/
theorem crcStep_xor (p a b : Byte) : crcStep p (a ^^^ b) = crcStep p a ^^^ crcStep p b := by
  unfold crcStep
  rw [BitVec.shiftLeft_xor_distrib, BitVec.getLsbD_xor]
  cases a.getLsbD 7 <;> cases b.getLsbD 7 <;> simp
  · ac_rfl
  · ac_rfl
  · ac_nf
    simp [← BitVec.xor_assoc]

end Sys2Proof.Machine
end

