-- ==== Sys2Proof/Machine/Instance.lean ====
section
/-! DEFINITION. The machine as a function of its parameters (spec/00_scope.md R4: a model must take them as arguments). -/

namespace Sys2Proof.Machine

/-- The block instantiated with the parameters `c`: the same step for every record, and the state after reset that holds
`c` (10_state.md R25, R26). `Sys2Proof.core` is the instance with the defaults of R4 (log 1). -/
def instanceOf (c : Config) : Host.Core where
  State := State
  Fault := Fault
  Refusal := Refusal
  step := step
  reset := State.resetOf c

end Sys2Proof.Machine
end

