-- ==== Sys2Proof/Laws/Instance.lean ====
section
/-! SUPPORT. Laws of the parametric machine. -/

namespace Sys2Proof.Machine

/-- The host's machine is the instance with the default parameters (00_scope.md R4; log 1). -/
theorem core_eq_instanceOf_default : Sys2Proof.core = instanceOf Config.default := rfl

@[simp] theorem instanceOf_reset (c : Config) : (instanceOf c).reset = State.resetOf c := rfl
@[simp] theorem instanceOf_step (c : Config) : (instanceOf c).step = step := rfl

/-- The state after reset holds the parameters of the instance. -/
@[simp] theorem resetOf_cfg (c : Config) : (State.resetOf c).cfg = c := rfl

end Sys2Proof.Machine
end

