-- ==== Sys2Proof/Laws/Plan.lean ====
section
/-! SUPPORT. Laws of register widths and of the chunk plan (spec/20_memory.md R32, 41_framer.md R76, R77). -/

namespace Sys2Proof.Machine

theorem reglen_le (c : Config) (a : Byte) : reglen c a ≤ 3 := by
  unfold reglen
  split <;> [omega; skip]
  split <;> [omega; skip]
  split <;> omega

/-- Everything one turn of the loop of R76 can do: stop at the end of the buffer, refuse the chunk (R77), or accept it
and go on behind it. -/
theorem planFrom_succ (c : Config) (asc : Bool) (L addr : Byte) (n fuel k i : Nat) (inc : Int) :
    planFrom c asc L addr n (fuel + 1) k i inc =
      if i < n then
        if reglen c (effAddr c L addr inc) = 0 ∨ n < i + reglen c (effAddr c L addr inc) then none
        else (planFrom c asc L addr n fuel (k + 1) (i + reglen c (effAddr c L addr inc))
          (inc + addrSign asc * reglen c (effAddr c L addr inc))).map
            (⟨k, effAddr c L addr inc, reglen c (effAddr c L addr inc), i⟩ :: ·)
      else some [] := by
  rw [planFrom]
  by_cases h : i < n <;> simp only [h, if_true, if_false]
  by_cases h0 : reglen c (effAddr c L addr inc) = 0
  · simp [h0]
  · by_cases h1 : n < i + reglen c (effAddr c L addr inc) <;> simp [h0, h1]

theorem planFrom_done (c : Config) (asc : Bool) (L addr : Byte) (n fuel k : Nat) (inc : Int) :
    planFrom c asc L addr n fuel k n inc = some [] := by
  cases fuel <;> simp [planFrom]

/-- The chunks of a plan that begins at chunk `k` and offset `i`: the first, if any, is the one the loop is at, and
the rest are a plan that begins behind it. -/
theorem planFrom_some {c : Config} {asc : Bool} {L addr : Byte} {n fuel k i : Nat} {inc : Int} {plan : List Chunk}
    (h : planFrom c asc L addr n fuel k i inc = some plan) :
    (n ≤ i ∧ plan = []) ∨
    (∃ fuel' rest, fuel = fuel' + 1 ∧ i < n ∧
      reglen c (effAddr c L addr inc) ≠ 0 ∧ i + reglen c (effAddr c L addr inc) ≤ n ∧
      planFrom c asc L addr n fuel' (k + 1) (i + reglen c (effAddr c L addr inc))
        (inc + addrSign asc * reglen c (effAddr c L addr inc)) = some rest ∧
      plan = ⟨k, effAddr c L addr inc, reglen c (effAddr c L addr inc), i⟩ :: rest) := by
  cases fuel with
  | zero =>
    rw [planFrom] at h
    split at h
    · cases h
    · exact .inl ⟨by omega, by simpa using h.symm⟩
  | succ fuel' =>
    rw [planFrom_succ] at h
    split at h
    · split at h
      · cases h
      · rename_i hi hw
        obtain ⟨rest, hr, rfl⟩ := Option.map_eq_some_iff.mp h
        exact .inr ⟨fuel', rest, rfl, hi, by omega, by omega, hr, rfl⟩
    · exact .inl ⟨by omega, by simpa using h.symm⟩

/-- The chunks of a plan fill the buffer from the offset it begins at, exactly (R77). -/
theorem planFrom_fills {c : Config} {asc : Bool} {L addr : Byte} {n fuel k i : Nat} {inc : Int} {plan : List Chunk}
    (h : planFrom c asc L addr n fuel k i inc = some plan) (hi : i ≤ n) :
    i + (plan.map Chunk.width).sum = n := by
  induction fuel generalizing k i inc plan with
  | zero =>
    rcases planFrom_some h with ⟨h1, rfl⟩ | ⟨_, _, h1, _⟩
    · simp; omega
    · omega
  | succ fuel ih =>
    rcases planFrom_some h with ⟨h1, rfl⟩ | ⟨f, rest, h1, _, _, h2, h3, rfl⟩
    · simp; omega
    · obtain rfl : f = fuel := by omega
      have := ih h3 h2
      simp only [List.map_cons, List.sum_cons]
      omega

end Sys2Proof.Machine
end

