-- ==== Sys2Proof/Laws/State.lean ====
section
/-! SUPPORT. One lemma per field per update of State, so that no later proof unfolds a record update. -/

namespace Sys2Proof.Machine

section respond

variable (s : State) (st : Status) (data : List Byte)

@[simp] theorem State.respond_crc : (s.respond st data).crc = s.crc := rfl
@[simp] theorem State.respond_crcEn : (s.respond st data).crcEn = s.crcEn := rfl
@[simp] theorem State.respond_addrAsc : (s.respond st data).addrAsc = s.addrAsc := rfl
@[simp] theorem State.respond_singleInstr : (s.respond st data).singleInstr = s.singleInstr := rfl
@[simp] theorem State.respond_streamKeep : (s.respond st data).streamKeep = s.streamKeep := rfl
@[simp] theorem State.respond_streamLen : (s.respond st data).streamLen = s.streamLen := rfl
@[simp] theorem State.respond_ch : (s.respond st data).ch = s.ch := rfl
@[simp] theorem State.respond_csActive : (s.respond st data).csActive = s.csActive := rfl
@[simp] theorem State.respond_cfg : (s.respond st data).cfg = s.cfg := rfl
@[simp] theorem State.respond_inputs : (s.respond st data).inputs = s.inputs := rfl
@[simp] theorem State.respond_devRx : (s.respond st data).devRx = s.devRx := rfl
@[simp] theorem State.respond_bus : (s.respond st data).bus = s.bus := rfl
@[simp] theorem State.respond_responses : (s.respond st data).responses = s.responses ++ [⟨st, data⟩] := rfl

end respond

section raise

variable (s : State) (st : Status)

@[simp] theorem State.raise_crc : (s.raise st).crc = s.crc := rfl
@[simp] theorem State.raise_crcEn : (s.raise st).crcEn = s.crcEn := rfl
@[simp] theorem State.raise_addrAsc : (s.raise st).addrAsc = s.addrAsc := rfl
@[simp] theorem State.raise_singleInstr : (s.raise st).singleInstr = s.singleInstr := rfl
@[simp] theorem State.raise_streamKeep : (s.raise st).streamKeep = s.streamKeep := rfl
@[simp] theorem State.raise_streamLen : (s.raise st).streamLen = s.streamLen := rfl
@[simp] theorem State.raise_ch : (s.raise st).ch = s.ch := rfl
@[simp] theorem State.raise_csActive : (s.raise st).csActive = s.csActive := rfl
@[simp] theorem State.raise_cfg : (s.raise st).cfg = s.cfg := rfl
@[simp] theorem State.raise_inputs : (s.raise st).inputs = s.inputs := rfl
@[simp] theorem State.raise_devRx : (s.raise st).devRx = s.devRx := rfl
@[simp] theorem State.raise_bus : (s.raise st).bus = s.bus := rfl
@[simp] theorem State.raise_responses : (s.raise st).responses = s.responses ++ [⟨st, []⟩] := rfl

end raise

/-- The response a computation's end gives. -/
def Ending.response : Ending → Response
  | .ok data => ⟨.ok, data⟩
  | .raise st => ⟨st, []⟩

@[simp] theorem Ending.response_ok (data : List Byte) : (Ending.ok data).response = ⟨.ok, data⟩ := rfl
@[simp] theorem Ending.response_raise (st : Status) : (Ending.raise st).response = ⟨st, []⟩ := rfl

/-- Ending a command only adds its response. -/
theorem State.finish_eq (s : State) (e : Ending) :
    s.finish e = { s with responses := s.responses ++ [e.response] } := by
  cases e <;> rfl

section finish

variable (s : State) (e : Ending)

@[simp] theorem State.finish_crc : (s.finish e).crc = s.crc := by cases e <;> rfl
@[simp] theorem State.finish_crcEn : (s.finish e).crcEn = s.crcEn := by cases e <;> rfl
@[simp] theorem State.finish_addrAsc : (s.finish e).addrAsc = s.addrAsc := by cases e <;> rfl
@[simp] theorem State.finish_singleInstr : (s.finish e).singleInstr = s.singleInstr := by cases e <;> rfl
@[simp] theorem State.finish_streamKeep : (s.finish e).streamKeep = s.streamKeep := by cases e <;> rfl
@[simp] theorem State.finish_streamLen : (s.finish e).streamLen = s.streamLen := by cases e <;> rfl
@[simp] theorem State.finish_ch : (s.finish e).ch = s.ch := by cases e <;> rfl
@[simp] theorem State.finish_csActive : (s.finish e).csActive = s.csActive := by cases e <;> rfl
@[simp] theorem State.finish_cfg : (s.finish e).cfg = s.cfg := by cases e <;> rfl
@[simp] theorem State.finish_inputs : (s.finish e).inputs = s.inputs := by cases e <;> rfl
@[simp] theorem State.finish_devRx : (s.finish e).devRx = s.devRx := by cases e <;> rfl
@[simp] theorem State.finish_bus : (s.finish e).bus = s.bus := by cases e <;> rfl
@[simp] theorem State.finish_responses : (s.finish e).responses = s.responses ++ [e.response] := by cases e <;> rfl

end finish

section afterSeg

variable (s : State) (tx : List Byte) (release : Bool)

@[simp] theorem State.afterSeg_crc : (s.afterSeg tx release).crc = s.crc := rfl
@[simp] theorem State.afterSeg_crcEn : (s.afterSeg tx release).crcEn = s.crcEn := rfl
@[simp] theorem State.afterSeg_addrAsc : (s.afterSeg tx release).addrAsc = s.addrAsc := rfl
@[simp] theorem State.afterSeg_singleInstr : (s.afterSeg tx release).singleInstr = s.singleInstr := rfl
@[simp] theorem State.afterSeg_streamKeep : (s.afterSeg tx release).streamKeep = s.streamKeep := rfl
@[simp] theorem State.afterSeg_streamLen : (s.afterSeg tx release).streamLen = s.streamLen := rfl
@[simp] theorem State.afterSeg_ch : (s.afterSeg tx release).ch = s.ch := rfl
@[simp] theorem State.afterSeg_csActive : (s.afterSeg tx release).csActive = !release := rfl
@[simp] theorem State.afterSeg_cfg : (s.afterSeg tx release).cfg = s.cfg := rfl
@[simp] theorem State.afterSeg_inputs : (s.afterSeg tx release).inputs = s.inputs := rfl
@[simp] theorem State.afterSeg_devRx : (s.afterSeg tx release).devRx = s.devRx.drop tx.length := rfl
@[simp] theorem State.afterSeg_bus : (s.afterSeg tx release).bus = s.bus ++ [.seg tx (s.answer tx release) release] := rfl
@[simp] theorem State.afterSeg_responses : (s.afterSeg tx release).responses = s.responses := rfl

end afterSeg

section releaseCs

variable (s : State) 

@[simp] theorem State.releaseCs_crc : (s.releaseCs).crc = s.crc := by
  unfold State.releaseCs
  split <;> rfl
@[simp] theorem State.releaseCs_crcEn : (s.releaseCs).crcEn = s.crcEn := by
  unfold State.releaseCs
  split <;> rfl
@[simp] theorem State.releaseCs_addrAsc : (s.releaseCs).addrAsc = s.addrAsc := by
  unfold State.releaseCs
  split <;> rfl
@[simp] theorem State.releaseCs_singleInstr : (s.releaseCs).singleInstr = s.singleInstr := by
  unfold State.releaseCs
  split <;> rfl
@[simp] theorem State.releaseCs_streamKeep : (s.releaseCs).streamKeep = s.streamKeep := by
  unfold State.releaseCs
  split <;> rfl
@[simp] theorem State.releaseCs_streamLen : (s.releaseCs).streamLen = s.streamLen := by
  unfold State.releaseCs
  split <;> rfl
@[simp] theorem State.releaseCs_ch : (s.releaseCs).ch = s.ch := by
  unfold State.releaseCs
  split <;> rfl
@[simp] theorem State.releaseCs_csActive : (s.releaseCs).csActive = false := by
  cases h : s.csActive <;> simp [State.releaseCs, h]
@[simp] theorem State.releaseCs_cfg : (s.releaseCs).cfg = s.cfg := by
  unfold State.releaseCs
  split <;> rfl
@[simp] theorem State.releaseCs_inputs : (s.releaseCs).inputs = s.inputs := by
  unfold State.releaseCs
  split <;> rfl
@[simp] theorem State.releaseCs_devRx : (s.releaseCs).devRx = s.devRx := by
  unfold State.releaseCs
  split <;> rfl
@[simp] theorem State.releaseCs_bus : (s.releaseCs).bus = s.bus ++ (if s.csActive then [.csRelease] else []) := by
  unfold State.releaseCs
  split <;> simp
@[simp] theorem State.releaseCs_responses : (s.releaseCs).responses = s.responses := by
  unfold State.releaseCs
  split <;> rfl

end releaseCs

section setChan

variable (s : State) (c : Byte) (x : Channel)

@[simp] theorem State.setChan_crc : (s.setChan c x).crc = s.crc := rfl
@[simp] theorem State.setChan_crcEn : (s.setChan c x).crcEn = s.crcEn := rfl
@[simp] theorem State.setChan_addrAsc : (s.setChan c x).addrAsc = s.addrAsc := rfl
@[simp] theorem State.setChan_singleInstr : (s.setChan c x).singleInstr = s.singleInstr := rfl
@[simp] theorem State.setChan_streamKeep : (s.setChan c x).streamKeep = s.streamKeep := rfl
@[simp] theorem State.setChan_streamLen : (s.setChan c x).streamLen = s.streamLen := rfl
@[simp] theorem State.setChan_ch : (s.setChan c x).ch = s.ch.set c.toNat x := rfl
@[simp] theorem State.setChan_csActive : (s.setChan c x).csActive = s.csActive := rfl
@[simp] theorem State.setChan_cfg : (s.setChan c x).cfg = s.cfg := rfl
@[simp] theorem State.setChan_inputs : (s.setChan c x).inputs = s.inputs := rfl
@[simp] theorem State.setChan_devRx : (s.setChan c x).devRx = s.devRx := rfl
@[simp] theorem State.setChan_bus : (s.setChan c x).bus = s.bus := rfl
@[simp] theorem State.setChan_responses : (s.setChan c x).responses = s.responses := rfl

end setChan

section takeInput

variable (s : State) 

@[simp] theorem State.takeInput_crc : (s.takeInput).crc = s.crc := rfl
@[simp] theorem State.takeInput_crcEn : (s.takeInput).crcEn = s.crcEn := rfl
@[simp] theorem State.takeInput_addrAsc : (s.takeInput).addrAsc = s.addrAsc := rfl
@[simp] theorem State.takeInput_singleInstr : (s.takeInput).singleInstr = s.singleInstr := rfl
@[simp] theorem State.takeInput_streamKeep : (s.takeInput).streamKeep = s.streamKeep := rfl
@[simp] theorem State.takeInput_streamLen : (s.takeInput).streamLen = s.streamLen := rfl
@[simp] theorem State.takeInput_ch : (s.takeInput).ch = s.ch := rfl
@[simp] theorem State.takeInput_csActive : (s.takeInput).csActive = s.csActive := rfl
@[simp] theorem State.takeInput_cfg : (s.takeInput).cfg = s.cfg := rfl
@[simp] theorem State.takeInput_inputs : (s.takeInput).inputs = s.inputs.drop 1 := rfl
@[simp] theorem State.takeInput_devRx : (s.takeInput).devRx = s.devRx := rfl
@[simp] theorem State.takeInput_bus : (s.takeInput).bus = s.bus := rfl
@[simp] theorem State.takeInput_responses : (s.takeInput).responses = s.responses := rfl

end takeInput

section issue

variable (s : State) (x : Input)

@[simp] theorem State.issue_crc : (s.issue x).crc = s.crc := rfl
@[simp] theorem State.issue_crcEn : (s.issue x).crcEn = s.crcEn := rfl
@[simp] theorem State.issue_addrAsc : (s.issue x).addrAsc = s.addrAsc := rfl
@[simp] theorem State.issue_singleInstr : (s.issue x).singleInstr = s.singleInstr := rfl
@[simp] theorem State.issue_streamKeep : (s.issue x).streamKeep = s.streamKeep := rfl
@[simp] theorem State.issue_streamLen : (s.issue x).streamLen = s.streamLen := rfl
@[simp] theorem State.issue_ch : (s.issue x).ch = s.ch := rfl
@[simp] theorem State.issue_csActive : (s.issue x).csActive = s.csActive := rfl
@[simp] theorem State.issue_cfg : (s.issue x).cfg = s.cfg := rfl
@[simp] theorem State.issue_inputs : (s.issue x).inputs = x :: s.inputs := rfl
@[simp] theorem State.issue_devRx : (s.issue x).devRx = s.devRx := rfl
@[simp] theorem State.issue_bus : (s.issue x).bus = s.bus := rfl
@[simp] theorem State.issue_responses : (s.issue x).responses = s.responses := rfl

end issue

section applyReset

variable (s : State) 

@[simp] theorem State.applyReset_crc : (s.applyReset).crc = none := rfl
@[simp] theorem State.applyReset_crcEn : (s.applyReset).crcEn = false := rfl
@[simp] theorem State.applyReset_addrAsc : (s.applyReset).addrAsc = false := rfl
@[simp] theorem State.applyReset_singleInstr : (s.applyReset).singleInstr = false := rfl
@[simp] theorem State.applyReset_streamKeep : (s.applyReset).streamKeep = false := rfl
@[simp] theorem State.applyReset_streamLen : (s.applyReset).streamLen = 0#8 := rfl
@[simp] theorem State.applyReset_ch : (s.applyReset).ch = List.replicate s.cfg.nCh (Channel.atReset s.cfg) := rfl
@[simp] theorem State.applyReset_csActive : (s.applyReset).csActive = false := rfl
@[simp] theorem State.applyReset_cfg : (s.applyReset).cfg = s.cfg := rfl
@[simp] theorem State.applyReset_inputs : (s.applyReset).inputs = s.inputs := rfl
@[simp] theorem State.applyReset_devRx : (s.applyReset).devRx = s.devRx := rfl
@[simp] theorem State.applyReset_bus : (s.applyReset).bus = s.bus := rfl
@[simp] theorem State.applyReset_responses : (s.applyReset).responses = s.responses := rfl

end applyReset

end Sys2Proof.Machine
end

