-- ==== Sys2Proof/Laws/Ops.lean ====
section
/-! SUPPORT. For each shared operation, once, everything it can do. -/

namespace Sys2Proof.Machine

/-- The device answers as many bytes as it is sent (00_scope.md section 6). -/
@[simp] theorem State.answer_length (s : State) (tx : List Byte) (release : Bool) :
    (s.answer tx release).length = tx.length := by
  simp [State.answer]

/-- The bytes the device has ready are the ones it answers. -/
theorem State.answer_of_script (s : State) (tx : List Byte) (release : Bool) (h : tx.length ≤ s.devRx.length) :
    s.answer tx release = s.devRx.take tx.length := by
  apply List.ext_getElem
  · simp [h]
  · intro j h1 h2
    simp only [State.answer, List.getElem_map, List.getElem_range, List.getElem_take]
    rw [List.getD_eq_getElem]

/-- A state that differs from another at most in chip select, in what the device has ready and in what was added to
the bus: all that a transfer can change. -/
def BusOnly (s t : State) : Prop :=
  ∃ cs d es, t = { s with csActive := cs, devRx := d, bus := s.bus ++ es }

theorem BusOnly.refl (s : State) : BusOnly s s := ⟨s.csActive, s.devRx, [], by simp⟩

theorem BusOnly.trans {s t u : State} (h1 : BusOnly s t) (h2 : BusOnly t u) : BusOnly s u := by
  obtain ⟨cs, d, es, rfl⟩ := h1
  obtain ⟨cs', d', es', rfl⟩ := h2
  exact ⟨cs', d', es ++ es', by simp⟩

theorem BusOnly.afterSeg (s : State) (tx : List Byte) (release : Bool) : BusOnly s (s.afterSeg tx release) :=
  ⟨_, _, _, rfl⟩

theorem BusOnly.releaseCs (s : State) : BusOnly s s.releaseCs := by
  unfold State.releaseCs
  split
  · exact ⟨_, s.devRx, _, rfl⟩
  · exact BusOnly.refl s

@[simp] theorem BusOnly.cfg {s t : State} (h : BusOnly s t) : t.cfg = s.cfg := by
  obtain ⟨_, _, _, rfl⟩ := h; rfl

@[simp] theorem BusOnly.responses {s t : State} (h : BusOnly s t) : t.responses = s.responses := by
  obtain ⟨_, _, _, rfl⟩ := h; rfl

/-- What the write chunks of a transfer can do (R78, R79, R84): end well, or end with `BadMessage`; only the bus side
changes, and chip select is released at the end unless there was no chunk at all. -/
theorem State.crcWrite_spec (T : Vector Byte 256) (instr : Byte) (data : List Byte) (plan : List Chunk) (s : State) :
    BusOnly s (State.crcWrite T instr data plan s).2 ∧
    ((State.crcWrite T instr data plan s).1 = .ok [] ∨ (State.crcWrite T instr data plan s).1 = .raise .badMessage) ∧
    ((s.csActive = false ∨ plan ≠ []) → (State.crcWrite T instr data plan s).2.csActive = false) := by
  induction plan generalizing s with
  | nil => exact ⟨BusOnly.refl s, .inl rfl, by simp [State.crcWrite]⟩
  | cons ck rest ih =>
    simp only [State.crcWrite]
    split
    · obtain ⟨h1, h2, h3⟩ := ih (s.afterSeg (writeTx s.cfg T instr data ck) rest.isEmpty)
      refine ⟨(BusOnly.afterSeg s _ _).trans h1, h2, fun _ => h3 ?_⟩
      cases rest <;> simp
    · exact ⟨(BusOnly.afterSeg s _ _).trans (BusOnly.releaseCs _), .inr rfl, by simp⟩

/-- What the read chunks of a transfer can do (R80, R81, R84). -/
theorem State.crcRead_spec (T : Vector Byte 256) (instr : Byte) (plan : List Chunk) (out : List Byte) (s : State) :
    BusOnly s (State.crcRead T instr plan out s).2 ∧
    ((∃ bytes, (State.crcRead T instr plan out s).1 = .ok bytes) ∨
      (State.crcRead T instr plan out s).1 = .raise .badMessage) ∧
    ((s.csActive = false ∨ plan ≠ []) → (State.crcRead T instr plan out s).2.csActive = false) := by
  induction plan generalizing s out with
  | nil => exact ⟨BusOnly.refl s, .inl ⟨out, rfl⟩, by simp [State.crcRead]⟩
  | cons ck rest ih =>
    simp only [State.crcRead]
    split
    · obtain ⟨h1, h2, h3⟩ := ih (out ++ readBytes ck (s.answer (readTx s.cfg instr ck) rest.isEmpty))
        (s.afterSeg (readTx s.cfg instr ck) rest.isEmpty)
      refine ⟨(BusOnly.afterSeg s _ _).trans h1, h2, fun _ => h3 ?_⟩
      cases rest <;> simp
    · exact ⟨(BusOnly.afterSeg s _ _).trans (BusOnly.releaseCs _), .inr rfl, by simp⟩

/-- What stops a CRC-secured transfer before the bus (R85): only these two statuses. -/
theorem State.secure_error {s : State} {addr : Byte} {n : Nat} {st : Status} (h : s.secure addr n = .error st) :
    st = .invalidArgument ∨ st = .notReady := by
  unfold State.secure at h
  split at h
  · cases h; exact .inl rfl
  · split at h
    · cases h; exact .inr rfl
    · cases h

/-- Everything a write transfer can do (R71, R85): refuse with the state as it was, end well, or end with
`BadMessage`. In the last two only the bus side changes and chip select is released if it was. -/
theorem State.memWrite_spec (s : State) (addr : Byte) (data : List Byte) :
    (((s.memWrite addr data).1 = .raise .invalidArgument ∨ (s.memWrite addr data).1 = .raise .notReady ∧ s.crcEn = true) ∧
      (s.memWrite addr data).2 = s) ∨
    (((s.memWrite addr data).1 = .ok [] ∨ (s.memWrite addr data).1 = .raise .badMessage ∧ s.crcEn = true) ∧
      BusOnly s (s.memWrite addr data).2 ∧ (s.csActive = false → (s.memWrite addr data).2.csActive = false)) := by
  unfold State.memWrite
  split
  · exact .inl ⟨.inl rfl, rfl⟩
  · split
    · rename_i hc
      split
      · rename_i st hst
        rcases State.secure_error hst with rfl | rfl
        · exact .inl ⟨.inl rfl, rfl⟩
        · exact .inl ⟨.inr ⟨rfl, hc⟩, rfl⟩
      · rename_i plan T _
        obtain ⟨h1, h2, h3⟩ := State.crcWrite_spec T (instrByte s.cfg addr false) data plan s
        exact .inr ⟨h2.imp_right fun h => ⟨h, hc⟩, h1, fun h => h3 (.inl h)⟩
    · exact .inr ⟨.inl rfl, (BusOnly.afterSeg s _ _).trans (BusOnly.afterSeg _ _ _), fun _ => rfl⟩

/-- Everything a read transfer can do (R72, R85). -/
theorem State.memRead_spec (s : State) (addr : Byte) (n : Nat) :
    (((s.memRead addr n).1 = .raise .invalidArgument ∨ (s.memRead addr n).1 = .raise .notReady ∧ s.crcEn = true) ∧
      (s.memRead addr n).2 = s) ∨
    (((∃ bytes, (s.memRead addr n).1 = .ok bytes) ∨ (s.memRead addr n).1 = .raise .badMessage ∧ s.crcEn = true) ∧
      BusOnly s (s.memRead addr n).2 ∧ (s.csActive = false → (s.memRead addr n).2.csActive = false)) := by
  unfold State.memRead
  split
  · exact .inl ⟨.inl rfl, rfl⟩
  · split
    · rename_i hc
      split
      · rename_i st hst
        rcases State.secure_error hst with rfl | rfl
        · exact .inl ⟨.inl rfl, rfl⟩
        · exact .inl ⟨.inr ⟨rfl, hc⟩, rfl⟩
      · rename_i plan T _
        obtain ⟨h1, h2, h3⟩ := State.crcRead_spec T (instrByte s.cfg addr true) plan [] s
        exact .inr ⟨h2.imp_right fun h => ⟨h, hc⟩, h1, fun h => h3 (.inl h)⟩
    · exact .inr ⟨.inl ⟨_, rfl⟩, (BusOnly.afterSeg s _ _).trans (BusOnly.afterSeg _ _ _), fun _ => rfl⟩

/-- A CSR write changes configuration fields only (R97). -/
theorem State.csrWrite_spec {s t : State} {v : Byte} {r : Csr} (h : s.csrWrite v r = some t) :
    ∃ a b d e L, t = { s with crcEn := a, addrAsc := b, singleInstr := d, streamKeep := e, streamLen := L } := by
  cases r <;> simp only [State.csrWrite, Option.some.injEq, reduceCtorEq] at h <;> subst h
  · exact ⟨_, s.addrAsc, s.singleInstr, s.streamKeep, s.streamLen, rfl⟩
  · exact ⟨s.crcEn, _, _, _, s.streamLen, rfl⟩
  · exact ⟨s.crcEn, s.addrAsc, s.singleInstr, s.streamKeep, _, rfl⟩

/-- A recomputed channel is fresh (R23, R114): the computation reads the input fields only. -/
theorem deriveChannel_derived (c : Config) (ch : Channel) (d : Option Derived) :
    deriveChannel c { ch with derived := d } = deriveChannel c ch := rfl

/-- Writing `FAST` does not touch what the computation reads (R106). -/
theorem deriveChannel_fast (c : Config) (ch : Channel) (x : BitVec 1) :
    deriveChannel c { ch with fast := x } = deriveChannel c ch := rfl

/-- What an accepted write makes of a channel: the named field takes the value, no other input field changes, and a
fresh channel stays fresh (R23, R106). -/
theorem Channel.write_spec (c : Config) (ch : Channel) (f : ChField) (v : BitVec 16)
    (hf : ch.derived = deriveChannel c ch) :
    (ch.write c f v).derived = deriveChannel c (ch.write c f v) ∧
    ∃ d, ch.write c f v = { ch.setField v f with derived := d } := by
  cases f <;> simp only [Channel.write, ChField.triggers, Channel.recompute, if_true, Bool.false_eq_true, if_false,
    deriveChannel_derived, true_and]
  case fast => exact ⟨by simpa [Channel.setField, deriveChannel_fast] using hf, _, rfl⟩
  case valid => exact ⟨by simpa [Channel.setField] using hf, ch.derived, by simp [Channel.setField]⟩
  all_goals exact ⟨_, rfl⟩

@[simp] theorem readBytes_answer_length (s : State) (instr : Byte) (ck : Chunk) (release : Bool) :
    (readBytes ck (s.answer (readTx s.cfg instr ck) release)).length = ck.width := by
  simp only [readBytes, slice, List.length_take, List.length_drop, State.answer_length, readTx, leadBytes,
    List.length_append, List.length_replicate]
  split <;> simp

/-- A CRC-secured read that ends well gathers the widths of its chunks. -/
theorem State.crcRead_ok_length {T : Vector Byte 256} {instr : Byte} {plan : List Chunk} {out bytes : List Byte}
    {s : State} (h : (State.crcRead T instr plan out s).1 = .ok bytes) :
    bytes.length = out.length + (plan.map Chunk.width).sum := by
  induction plan generalizing s out with
  | nil => simp only [State.crcRead, Ending.ok.injEq] at h; simp [h]
  | cons ck rest ih =>
    simp only [State.crcRead] at h
    split at h
    · rw [ih h]
      simp only [List.length_append, readBytes_answer_length, List.map_cons, List.sum_cons]
      omega
    · cases h

/-- A read transfer that ends well delivers the bytes asked for (R72). -/
theorem State.memRead_ok_length {s : State} {addr : Byte} {n : Nat} {bytes : List Byte}
    (h : (s.memRead addr n).1 = .ok bytes) : bytes.length = n := by
  unfold State.memRead at h
  split at h
  · cases h
  · split at h
    · split at h
      · cases h
      · rename_i plan T hsec
        unfold State.secure at hsec
        split at hsec
        · cases hsec
        · rename_i plan' hp
          split at hsec
          · cases hsec
          · cases hsec
            have := planFrom_fills hp (Nat.zero_le n)
            rw [State.crcRead_ok_length h]
            simp only [List.length_nil]
            omega
    · simp only [State.plainRead, Ending.ok.injEq] at h
      simp [← h]

/-- A plain write runs the wire form of its instruction byte first, then sends the data (R46, R47, R73). -/
theorem State.plainWrite_of_wire {s u : State} {addr : Byte} (h : exec (.wireWr addr) s = .next u) (data : List Byte) :
    s.plainWrite (instrByte s.cfg addr false) data = (.ok [], u.afterSeg data true) := by
  cases h; rfl

/-- A plain read runs the wire form of its instruction byte first, then receives the data (R46, R47, R73). -/
theorem State.plainRead_of_wire {s u : State} {addr : Byte} (h : exec (.wireRd addr) s = .next u) (n : Nat) :
    s.plainRead (instrByte s.cfg addr true) n =
      (.ok (u.answer (List.replicate n s.cfg.txFill) true), u.afterSeg (List.replicate n s.cfg.txFill) true) := by
  cases h; rfl

end Sys2Proof.Machine
end

