-- ==== Sys2Proof/Laws/PerInstr.lean ====
section
/-! SUPPORT. The family OpcodeByte: the first byte of an instruction's encoding is the one its row of
spec/opcode_table.json fixes (spec/30_encoding.md R53); a wire form is one byte (R46). -/

namespace Sys2Proof.Laws.OpcodeByte

/-- The opcode byte that the instruction's row fixes; the wire forms have none. -/
def rowByte : Instr → Option Byte
  | .crcInit _ => some 0x01#8
  | .crcCalc _ _ => some 0x02#8
  | .xferWr _ _ => some 0x10#8
  | .xferRd _ _ => some 0x11#8
  | .regWr _ _ => some 0x12#8
  | .regRd _ => some 0x13#8
  | .csrWr _ _ => some 0x20#8
  | .csrRd _ => some 0x21#8
  | .chWr _ _ _ => some 0x30#8
  | .chRd _ _ => some 0x31#8
  | .scScale _ => some 0x32#8
  | .scOffset _ => some 0x33#8
  | .scConv _ _ => some 0x34#8
  | .wireWr _ => none
  | .wireRd _ => none

def Statement (i : Instr) : Prop :=
  ∀ c : Config, match rowByte i with
    | some b => (encode c i).head? = some b
    | none => (encode c i).length = 1

theorem crcInit (poly : Byte) : Statement (.crcInit poly) := fun _ => rfl
theorem crcCalc (seed : Byte) (data : List Byte) : Statement (.crcCalc seed data) := fun _ => rfl
theorem xferWr (addr : Byte) (data : List Byte) : Statement (.xferWr addr data) := fun _ => rfl
theorem xferRd (addr n : Byte) : Statement (.xferRd addr n) := fun _ => rfl
theorem regWr (addr : Byte) (value : BitVec 24) : Statement (.regWr addr value) := fun _ => rfl
theorem regRd (addr : Byte) : Statement (.regRd addr) := fun _ => rfl
theorem csrWr (csr value : Byte) : Statement (.csrWr csr value) := fun _ => rfl
theorem csrRd (csr : Byte) : Statement (.csrRd csr) := fun _ => rfl
theorem chWr (ch field : Byte) (value : BitVec 16) : Statement (.chWr ch field value) := fun _ => rfl
theorem chRd (ch field : Byte) : Statement (.chRd ch field) := fun _ => rfl
theorem scScale (ch : Byte) : Statement (.scScale ch) := fun _ => rfl
theorem scOffset (ch : Byte) : Statement (.scOffset ch) := fun _ => rfl
theorem scConv (ch : Byte) (image : BitVec 24) : Statement (.scConv ch image) := fun _ => rfl
theorem wireWr (addr : Byte) : Statement (.wireWr addr) := fun _ => rfl
theorem wireRd (addr : Byte) : Statement (.wireRd addr) := fun _ => rfl

end Sys2Proof.Laws.OpcodeByte
end

