-- ==== Sys2Proof/Tests/Slice0.lean ====
section
/-! SUPPORT. Tests. Expected values are the spec's own vectors (spec/95_test_vectors.md V1 to V40, P1 to P5), its opcode
map (30_encoding.md R53) and wire format (R46). After them: for each statement with hypotheses, a state and operands that
meet all of them, at the ends of the ranges where it has clauses. -/

namespace Sys2Proof.Tests

open Sys2Proof Sys2Proof.Machine Sys2Proof.Spec

/-! ### Helpers -/

/-- The state with a command issued and the device's answers set. -/
def issued (s : State) (cmd rx : List Byte) : State := { s with inputs := [.command cmd], devRx := rx }

/-- The response bytes of a step from a state that gave none before. -/
def answers : Outcome → List (List Byte)
  | .next t => t.responses.map Response.bytes
  | .fault _ => []
  | .refused _ => []

/-- What a step put on the bus. -/
def events : Outcome → List BusEvent
  | .next t => t.bus
  | .fault _ => []
  | .refused _ => []

/-- The derived numbers after a step. -/
def numbers : Outcome → List (Option Derived)
  | .next t => t.ch.map Channel.derived
  | .fault _ => []
  | .refused _ => []

/-- After `CRC.INIT 0x07`. -/
def tabled : State := { State.reset with crc := some ⟨0x07#8, tblgen 0x07#8⟩ }

/-- After `CRC.INIT 0x07` and `CSR.WR CTRL, 1`. -/
def secured : State := { tabled with crcEn := true }

/-- A channel with the inputs of V31's first example, `SC.CUSTOM 1, 0, 0, 0, 0, 1000`. -/
def customChannel : Channel := { Channel.zero with override := 1, rfb := 1000 }

/-- Channel 0 in range 4, channel 1 with the custom range, both recomputed. -/
def scaled : State :=
  { State.reset with
    ch := [{ Channel.zero with range := 4 }.recompute Config.default, customChannel.recompute Config.default] }

/-- Channel 0 in range 4 and fast, channel 1 overridden with no resistance. -/
def fastAndInvalid : State :=
  { State.reset with
    ch := [{ Channel.zero with range := 4, fast := 1 }.recompute Config.default,
      { Channel.zero with override := 1 }.recompute Config.default] }

/-! ### Well-formedness -/

theorem test_wf_refuses_long_calc : (Instr.crcCalc 0#8 (List.replicate 256 0#8)).wf Config.default = false := by
  rw [Instr.wf, List.length_replicate]
  decide
theorem test_wf_refuses_long_write : (Instr.xferWr 0#8 (List.replicate 256 0#8)).wf Config.default = false := by
  rw [Instr.wf, List.length_replicate]
  decide
theorem test_wf_refuses_wire_write_bit7 : (Instr.wireWr 0x8A#8).wf Config.default = false := by decide
theorem test_wf_refuses_wire_read_bit7 : (Instr.wireRd 0xFF#8).wf Config.default = false := by decide
theorem test_wf_accepts_longest : (Instr.xferWr 0#8 (List.replicate 255 0#8)).wf Config.default = true := by
  rw [Instr.wf, List.length_replicate]
  decide
theorem test_config_wf : Config.default.wf = true ∧ Config.default.sourceValues = true := by decide
theorem test_config_wf_refuses_read_bit_in_mask : { Config.default with readBit := 0x40#8 }.wf = false := by decide

/-! ### Decoding, from the opcode map R53 and R46 -/

theorem test_decode_crcInit : decode [0x01#8, 0x07#8] = .instr (.crcInit 0x07#8) := by decide
theorem test_decode_crcCalc :
    decode [0x02#8, 0xA5#8, 0x02#8, 0x8A#8, 0x34#8] = .instr (.crcCalc 0xA5#8 [0x8A#8, 0x34#8]) := by decide
theorem test_decode_xferWr :
    decode [0x10#8, 0x2C#8, 0x04#8, 0x12#8, 0x30#8, 0x45#8, 0x60#8] =
      .instr (.xferWr 0x2C#8 [0x12#8, 0x30#8, 0x45#8, 0x60#8]) := by decide
theorem test_decode_xferRd : decode [0x11#8, 0x05#8, 0x03#8] = .instr (.xferRd 0x05#8 0x03#8) := by decide
theorem test_decode_regWr :
    decode [0x12#8, 0x3D#8, 0xAB#8, 0xCD#8, 0xEF#8] = .instr (.regWr 0x3D#8 0xABCDEF#24) := by decide
theorem test_decode_regRd : decode [0x13#8, 0x2C#8] = .instr (.regRd 0x2C#8) := by decide
theorem test_decode_csrWr : decode [0x20#8, 0x01#8, 0xFF#8] = .instr (.csrWr 0x01#8 0xFF#8) := by decide
theorem test_decode_csrRd : decode [0x21#8, 0x04#8] = .instr (.csrRd 0x04#8) := by decide
theorem test_decode_chWr :
    decode [0x30#8, 0x01#8, 0x03#8, 0x03#8, 0xE8#8] = .instr (.chWr 0x01#8 0x03#8 0x03E8#16) := by decide
theorem test_decode_chRd : decode [0x31#8, 0x01#8, 0x08#8] = .instr (.chRd 0x01#8 0x08#8) := by decide
theorem test_decode_scScale : decode [0x32#8, 0x01#8] = .instr (.scScale 0x01#8) := by decide
theorem test_decode_scOffset : decode [0x33#8, 0x00#8] = .instr (.scOffset 0x00#8) := by decide
theorem test_decode_scConv :
    decode [0x34#8, 0x00#8, 0x80#8, 0x12#8, 0x34#8] = .instr (.scConv 0x00#8 0x801234#24) := by decide
theorem test_decode_wireWr : decodeWire Config.default 0x2C#8 = .wireWr 0x2C#8 := by decide
theorem test_decode_wireRd : decodeWire Config.default 0xAC#8 = .wireRd 0x2C#8 := by decide
theorem test_encode_wire_v6 :
    encode Config.default (.wireWr 0x8A#8) = [0x0A#8] ∧ encode Config.default (.wireRd 0xFF#8) = [0xFF#8] := by decide
theorem test_decode_rejects :
    decode [] = .rejected .empty ∧ decode [0x14#8, 0x00#8] = .rejected (.reservedOpcode 0x14#8) ∧
    decode [0x01#8, 0x07#8, 0x00#8] = .rejected (.wrongLength 0x01#8) ∧
    decode [0x10#8, 0x0A#8] = .rejected (.wrongLength 0x10#8) := by decide
theorem test_table_word :
    decodeTableWord 24 0xFF0120 = some (.csrWr 0x01#8 0xFF#8) ∧ decodeTableWord 8 0xAC = some (.wireRd 0x2C#8) := by
  decide
theorem test_table_word_runs : answers (step (State.reset.withFetchWord 16 0x0001)) = [[0x00#8]] := by decide
theorem test_rejected_statuses :
    answers (step (issued State.reset [] [])) = [[0x01#8]] ∧
    answers (step (issued State.reset [0xFF#8] [])) = [[0x06#8]] ∧
    answers (step (issued State.reset [0x10#8, 0x0A#8, 0x02#8, 0x34#8] [])) = [[0x01#8]] := by decide

/-! ### The CRC engine (V1, V2, V3, V5) -/

theorem test_table_v1 :
    tblEntry 0x07#8 0x80#8 = 0x89#8 ∧ tblEntry 0x07#8 0xA5#8 = 0x72#8 ∧ tblEntry 0x07#8 0xFF#8 = 0xF3#8 ∧
    tblEntry 0x31#8 0x02#8 = 0x62#8 ∧ tblEntry 0x9B#8 0x80#8 = 0x0B#8 := by decide
theorem test_crcInit : answers (step (issued State.reset [0x01#8, 0x07#8] [])) = [[0x00#8]] := by decide
theorem test_crcCalc_check_value :
    answers (step (issued tabled
      [0x02#8, 0x00#8, 0x09#8, 0x31#8, 0x32#8, 0x33#8, 0x34#8, 0x35#8, 0x36#8, 0x37#8, 0x38#8, 0x39#8] [])) =
      [[0x00#8, 0xF4#8]] := by decide
theorem test_crcCalc_not_ready :
    answers (step (issued State.reset [0x02#8, 0xA5#8, 0x01#8, 0x00#8] [])) = [[0x07#8]] := by decide

/-! ### The framer (V10 to V14, P2, P3) -/

theorem test_xferWr_plain :
    events (step (issued State.reset [0x10#8, 0x0A#8, 0x01#8, 0x5A#8] [0xEE#8, 0xEE#8])) =
      [.seg [0x0A#8] [0xEE#8] false, .seg [0x5A#8] [0xEE#8] true] := by decide
theorem test_xferWr_aborts_in_the_middle :
    let o := step (issued { secured with addrAsc := true } [0x10#8, 0x00#8, 0x03#8, 0x10#8, 0x20#8, 0x30#8]
      [0xEE#8, 0xEE#8, 0x29#8, 0xEE#8, 0xE6#8])
    answers o = [[0x05#8]] ∧
    events o = [.seg [0x00#8, 0x10#8, 0x29#8] [0xEE#8, 0xEE#8, 0x29#8] false, .seg [0x20#8, 0xE7#8] [0xEE#8, 0xE6#8] false,
      .csRelease] := by decide
theorem test_xferRd_plain :
    answers (step (issued State.reset [0x11#8, 0xCC#8, 0x02#8] [0xEE#8, 0x11#8, 0x22#8])) =
      [[0x00#8, 0x11#8, 0x22#8]] := by decide
theorem test_xferRd_stream :
    let o := step (issued { secured with streamLen := 2#8 } [0x11#8, 0x05#8, 0x03#8]
      [0xEE#8, 0x11#8, 0xD9#8, 0x22#8, 0x77#8, 0x33#8, 0x88#8])
    answers o = [[0x00#8, 0x11#8, 0x22#8, 0x33#8]] ∧
    events o = [.seg [0x85#8, 0x00#8, 0x00#8] [0xEE#8, 0x11#8, 0xD9#8] false,
      .seg [0x00#8, 0x00#8] [0x22#8, 0x77#8] false, .seg [0x00#8, 0x00#8] [0x33#8, 0x88#8] true] := by decide
theorem test_regWr_secured :
    let o := step (issued secured [0x12#8, 0x2C#8, 0x00#8, 0x12#8, 0x3F#8] [0xEE#8, 0xEE#8, 0xEE#8, 0xDC#8])
    answers o = [[0x00#8]] ∧
    events o = [.seg [0x2C#8, 0x12#8, 0x30#8, 0xDC#8] [0xEE#8, 0xEE#8, 0xEE#8, 0xDC#8] true] := by decide
theorem test_regWr_bad_echo :
    answers (step (issued secured [0x12#8, 0x0A#8, 0x00#8, 0x00#8, 0xB2#8] [0xEE#8, 0xEE#8, 0x00#8])) =
      [[0x05#8]] := by decide
theorem test_regRd_masked :
    answers (step (issued secured [0x13#8, 0x2C#8] [0xEE#8, 0x12#8, 0x34#8, 0xCB#8])) =
      [[0x00#8, 0x00#8, 0x12#8, 0x30#8]] := by decide
theorem test_regRd_secondary_region :
    answers (step (issued { secured with addrAsc := true } [0x13#8, 0x2C#8] [])) = [[0x01#8]] := by decide
theorem test_widths_v7 :
    ([0x00#8, 0x28#8, 0x29#8, 0x37#8, 0x38#8, 0x4B#8, 0x4C#8, 0xFF#8].map (reglen Config.default)) =
      [1, 1, 2, 2, 3, 3, 0, 0] := by decide
theorem test_plan_v11_stream :
    chunkPlan Config.default false 4#8 0x2A#8 6 =
      some [⟨0, 0x2A#8, 2, 0⟩, ⟨1, 0x28#8, 1, 2⟩, ⟨2, 0x27#8, 1, 3⟩, ⟨3, 0x2A#8, 2, 4⟩] := by decide
theorem test_plan_v11_refused :
    chunkPlan Config.default false 0#8 0x00#8 2 = none ∧ chunkPlan Config.default false 0#8 0x2C#8 3 = none ∧
    chunkPlan Config.default true 0#8 0x28#8 6 = none ∧ chunkPlan Config.default true 0#8 0x4B#8 4 = none := by decide
theorem test_wireWr_out :
    events (exec (.wireWr 0x2C#8) { State.reset with devRx := [0xEE#8] }) = [.seg [0x2C#8] [0xEE#8] false] := by decide
theorem test_wireRd_out :
    events (exec (.wireRd 0x2C#8) { State.reset with devRx := [0xEE#8] }) = [.seg [0xAC#8] [0xEE#8] false] := by decide
/-- A wire word runs in the transfer it begins: one command, one response, chip select released (R6). -/
theorem test_wire_words_run :
    let s := { State.reset with devRx := [0xEE#8, 0x5A#8] }
    events (step (s.withFetchWord 8 0x0A)) = [.seg [0x0A#8] [0xEE#8] false, .seg [0x00#8] [0x5A#8] true] ∧
    answers (step (s.withFetchWord 8 0x0A)) = [[0x00#8]] ∧
    events (step (s.withFetchWord 8 0x8A)) = [.seg [0x8A#8] [0xEE#8] false, .seg [0x00#8] [0x5A#8] true] ∧
    answers (step (s.withFetchWord 8 0x8A)) = [[0x00#8, 0x5A#8]] := by decide

/-! ### Control registers (V8, P5) -/

theorem test_csrWr_read_only : answers (step (issued State.reset [0x20#8, 0x03#8, 0x01#8] [])) = [[0x01#8]] := by decide
theorem test_csrWr_spicfg_sets_all :
    step (issued State.reset [0x20#8, 0x01#8, 0xFF#8] []) =
      .next { State.reset with addrAsc := true, singleInstr := true, streamKeep := true, responses := [⟨.ok, []⟩] } := by
  rfl
theorem test_csrRd_spicfg :
    answers (step (issued { State.reset with addrAsc := true, singleInstr := true, streamKeep := true }
      [0x21#8, 0x01#8] [])) = [[0x00#8, 0x07#8]] := by decide
theorem test_csrRd_polyr_not_ready : answers (step (issued State.reset [0x21#8, 0x04#8] [])) = [[0x07#8]] := by decide

/-! ### The scaler (V30, V31, P4) -/

theorem test_chWr_range :
    numbers (step (issued State.reset [0x30#8, 0x00#8, 0x01#8, 0x00#8, 0x04#8] [])) =
      [some ⟨0, 305176, -32768, 0⟩, some ⟨0, 38147, 0, 0⟩] := by decide
theorem test_chWr_custom_marker_invalidates :
    numbers (step (issued State.reset [0x30#8, 0x01#8, 0x01#8, 0x00#8, 0xFF#8] [])) =
      [some ⟨0, 38147, 0, 0⟩, none] := by decide
theorem test_chRd_rfb :
    answers (step (issued scaled [0x31#8, 0x01#8, 0x03#8] [])) = [[0x00#8, 0x03#8, 0xE8#8]] := by decide
theorem test_chRd_valid_at_reset :
    answers (step (issued State.reset [0x31#8, 0x00#8, 0x08#8] [])) = [[0x00#8, 0x00#8, 0x01#8]] := by decide
theorem test_scScale :
    answers (step (issued scaled [0x32#8, 0x01#8] [])) =
      [[0x00#8, 0#8, 0#8, 0#8, 0#8, 0#8, 0#8, 0#8, 0#8, 0x00#8, 0x01#8, 0x32#8, 0xF7#8]] := by decide
theorem test_scScale_not_ready : answers (step (issued fastAndInvalid [0x32#8, 0x01#8] [])) = [[0x07#8]] := by decide
theorem test_scOffset :
    answers (step (issued scaled [0x33#8, 0x01#8] [])) =
      [[0x00#8, 0xFF#8, 0xFF#8, 0xFF#8, 0xFF#8, 0xFF#8, 0xFF#8, 0xFC#8, 0x46#8, 0xFF#8, 0xF9#8, 0xC7#8, 0x2A#8]] := by
  decide
theorem test_scConv :
    answers (step (issued scaled [0x34#8, 0x00#8, 0xFF#8, 0xFF#8, 0xFF#8] [])) =
      [[0x00#8, 0#8, 0#8, 0#8, 0#8, 0#8, 0#8, 0x27#8, 0x0F#8, 0x00#8, 0x0A#8, 0xB6#8, 0x28#8]] := by decide
theorem test_scConv_fast :
    answers (step (issued fastAndInvalid [0x34#8, 0x00#8, 0x00#8, 0xFF#8, 0xFF#8] [])) =
      [[0x00#8, 0#8, 0#8, 0#8, 0#8, 0#8, 0#8, 0x27#8, 0x0B#8, 0x00#8, 0x01#8, 0xE5#8, 0xC0#8]] ∧
    answers (step (issued fastAndInvalid [0x34#8, 0x00#8, 0x01#8, 0x00#8, 0x00#8] [])) = [[0x01#8]] := by decide

/-! ### Reset (V40) and the assembler (R56, R57) -/

theorem test_reset_step :
    step { secured with inputs := [.reset], csActive := true } = .next State.reset := by rfl
theorem test_assemble :
    assembleLine "REG.WR 0x2C, 0x123F ; a comment" = some [.regWr 0x2C#8 0x00123F#24] ∧
    assembleLine "CH.WR 1, RFB, 1000" = some [.chWr 1#8 3#8 1000#16] ∧
    assembleLine "XFER.WR 0x2C, [12 30]" = some [.xferWr 0x2C#8 [0x12#8, 0x30#8]] ∧
    assembleLine "CRC.ON" = some [.csrWr 0x00#8 0x01#8] ∧ assembleLine "CSR.WR NAME, 1" = none := by decide

/-! ### The hypotheses of the statements are met

Encodings. -/

theorem witness_DecodeReadsEncodedCommand :
    (Instr.xferWr 0x2C#8 (List.replicate 255 0xFF#8)).isCommand = true ∧
    (Instr.xferWr 0x2C#8 (List.replicate 255 0xFF#8)).wf Config.default = true := by
  rw [Instr.wf, List.length_replicate]
  exact ⟨rfl, by decide⟩
theorem witness_AcceptedBytesAreTheEncoding : decode [0x13#8, 0x2C#8] = .instr (.regRd 0x2C#8) := by decide
theorem witness_WireByteCarriesAddressAndDirection : Config.default.wf = true := by decide
theorem witness_ReservedOpcodes :
    decode [0x35#8] = .rejected (.reservedOpcode 0x35#8) ∧ decode [0x00#8] = .rejected (.reservedOpcode 0x00#8) ∧
    decode [0x34#8] ≠ .rejected (.reservedOpcode 0x34#8) := by decide

/-! The step. -/

theorem witness_StepRunsTheDecodedCommand :
    (issued State.reset [0x01#8, 0x07#8] []).inputs = .command [0x01#8, 0x07#8] :: [] ∧
    decode [0x01#8, 0x07#8] = .instr (.crcInit 0x07#8) := by decide
theorem witness_StepRunsTheWireByte_write :
    (issued State.reset [0x10#8, 0x0A#8, 0x01#8, 0x5A#8] []).inputs = .command [0x10#8, 0x0A#8, 0x01#8, 0x5A#8] :: [] ∧
    State.reset.cfg.wf = true ∧ State.reset.crcEn = false ∧
    decode [0x10#8, 0x0A#8, 0x01#8, 0x5A#8] = .instr (.xferWr 0x0A#8 [0x5A#8]) ∧
    LengthOk State.reset.cfg [0x5A#8].length :=
  ⟨rfl, by decide, rfl, by decide, by decide, by decide⟩
theorem witness_StepRunsTheWireByte_read :
    (issued State.reset [0x11#8, 0x0A#8, 0xFF#8] []).inputs = .command [0x11#8, 0x0A#8, 0xFF#8] :: [] ∧
    State.reset.cfg.wf = true ∧ State.reset.crcEn = false ∧
    decode [0x11#8, 0x0A#8, 0xFF#8] = .instr (.xferRd 0x0A#8 0xFF#8) ∧ LengthOk State.reset.cfg (0xFF#8 : Byte).toNat :=
  ⟨rfl, by decide, rfl, by decide, by decide, by decide⟩
theorem witness_StepAnswersWhatIsNoCommand :
    State.reset.inputs = [] ∧ (issued State.reset [] []).inputs = .command [] :: [] ∧ decode [] = .rejected .empty ∧
    (issued State.reset [0xFF#8] []).inputs = .command [0xFF#8] :: [] ∧
    decode [0xFF#8] = .rejected (.reservedOpcode 0xFF#8) ∧
    (issued State.reset [0x01#8] []).inputs = .command [0x01#8] :: [] ∧
    decode [0x01#8] = .rejected (.wrongLength 0x01#8) := by decide
theorem witness_ResetStepPutsResetValues : (State.reset.issue .reset).inputs = .reset :: [] := by decide
theorem witness_ResetMeetsTheInvariants : Config.default.wf = true ∧ Config.default.rangeTable ≠ [] := by decide
theorem witness_StateAfterReset :
    Config.default.sourceValues = true ∧ Config.default.rangeTable[0]? = some ⟨0, 2500⟩ ∧ State.reset.ch ≠ [] := by decide

/-- The reset state meets the invariant. -/
theorem reset_channels_fresh : ∀ ch ∈ State.reset.ch, ch.Fresh State.reset.cfg := by
  intro ch h
  obtain rfl := List.eq_of_mem_replicate h
  rfl

theorem reset_channels_legal : ∀ ch ∈ State.reset.ch, ch.Legal State.reset.cfg := by
  intro ch h
  obtain rfl := List.eq_of_mem_replicate h
  exact .inl (by decide)

theorem witness_StepKeepsTheInvariant :
    (secured.issue (.command [0x20#8, 0x00#8, 0x00#8])).Inv ∧
    ∃ t, step (secured.issue (.command [0x20#8, 0x00#8, 0x00#8])) = .next t :=
  ⟨⟨by decide, by decide, by decide, reset_channels_fresh, reset_channels_legal, by rintro t ⟨⟩; rfl⟩, _, rfl⟩
theorem witness_StepLeavesChipSelectReleased :
    (State.reset.issue (.command [0x11#8, 0x0A#8, 0x01#8])).Quiet ∧
    ∃ t, step (State.reset.issue (.command [0x11#8, 0x0A#8, 0x01#8])) = .next t :=
  ⟨rfl, _, rfl⟩

/-! Every command. -/

theorem witness_EveryCommandGivesOneResponse : (Instr.scConv 0#8 0#24).isCommand = true := by decide
theorem witness_FailingCommandIsPrecise :
    ∃ t, (Instr.xferRd 0#8 0#8).isCommand = true ∧ exec (.xferRd 0#8 0#8) State.reset = .next t ∧
      t.responses = State.reset.responses ++ [⟨.invalidArgument, []⟩] ∧ Status.invalidArgument ≠ .ok ∧
      Status.invalidArgument ≠ .badMessage ∧ State.reset.csActive = false :=
  ⟨_, rfl, rfl, rfl, by decide, by decide, rfl⟩
theorem witness_FailingCommandIsPrecise_badMessage :
    ∃ t, (Instr.regWr 0x0A#8 0xB2#24).isCommand = true ∧
      exec (.regWr 0x0A#8 0xB2#24) { secured with devRx := [0xEE#8, 0xEE#8, 0x00#8] } = .next t ∧
      t.responses = secured.responses ++ [⟨.badMessage, []⟩] ∧ Status.badMessage ≠ .ok :=
  ⟨_, rfl, rfl, by decide, by decide⟩
theorem witness_StatusesOfEachCommand :
    ∃ t, (Instr.xferRd 0x0A#8 0#8).isCommand = true ∧ exec (.xferRd 0x0A#8 0#8) State.reset = .next t ∧
      t.responses = State.reset.responses ++ [⟨.invalidArgument, []⟩] ∧ usesBus (.xferRd 0x0A#8 0#8) = true ∧
      State.reset.crcEn = false :=
  ⟨_, rfl, rfl, rfl, rfl, rfl⟩
theorem witness_OnlyCrcInitWritesTheTable :
    (∀ p, Instr.csrWr 0#8 1#8 ≠ .crcInit p) ∧ ∃ t, exec (.csrWr 0#8 1#8) State.reset = .next t :=
  ⟨nofun, _, rfl⟩
theorem witness_OnlyCsrWriteChangesTheConfiguration :
    (∀ r v, Instr.crcInit 7#8 ≠ .csrWr r v) ∧ ∃ t, exec (.crcInit 7#8) State.reset = .next t :=
  ⟨nofun, _, rfl⟩
theorem witness_OnlyChannelWriteChangesAChannel :
    (∀ c f v, Instr.crcInit 7#8 ≠ .chWr c f v) ∧ (∃ t, exec (.crcInit 7#8) State.reset = .next t) ∧
    (∃ t, exec (.chWr 0#8 1#8 4#16) State.reset = .next t) ∧ 1 ≠ (0#8 : Byte).toNat :=
  ⟨nofun, ⟨_, rfl⟩, ⟨_, rfl⟩, by decide⟩
theorem witness_OnlyTransfersUseTheBus :
    usesBus (.scScale 0#8) = false ∧ ∃ t, exec (.scScale 0#8) State.reset = .next t := ⟨rfl, _, rfl⟩
theorem witness_TransfersLeaveTheBlockState :
    usesBus (.xferRd 0x0A#8 1#8) = true ∧ ∃ t, exec (.xferRd 0x0A#8 1#8) State.reset = .next t := ⟨rfl, _, rfl⟩

/-! The CRC engine. -/

theorem witness_CrcCalcFoldsTheBuffer :
    tabled.crc = some ⟨0x07#8, tblgen 0x07#8⟩ ∧ State.reset.crc = none := ⟨rfl, rfl⟩
theorem witness_OddPolynomialSeesEveryByteChange : (0x07#8 : Byte).getLsbD 0 = true ∧ (0x00#8 : Byte) ≠ 0x80#8 := by
  decide

/-! The framer. -/

theorem witness_RegisterWidthTiers :
    Config.default.wf = true ∧ Config.default.addrMax.toNat < (0x4C#8 : Byte).toNat ∧
    (Config.default.t3Base.toNat ≤ (0x38#8 : Byte).toNat ∧ (0x4B#8 : Byte).toNat ≤ Config.default.addrMax.toNat) ∧
    (Config.default.t2Base.toNat ≤ (0x29#8 : Byte).toNat ∧ (0x37#8 : Byte).toNat < Config.default.t3Base.toNat) ∧
    (0x28#8 : Byte).toNat < Config.default.t2Base.toNat := by decide
theorem witness_PlanIsTheVisitSequence :
    Config.default.wf = true ∧
    chunkPlan Config.default true 0#8 0x28#8 5 = some [⟨0, 0x28#8, 1, 0⟩, ⟨1, 0x29#8, 2, 1⟩, ⟨2, 0x2B#8, 2, 3⟩] ∧
    (visit Config.default true 0#8 0x28#8 3).1 = 5 := by decide
theorem witness_StreamAddressesWrap :
    Config.default.wf = true ∧
    chunkPlan Config.default false 2#8 0x05#8 3 = some [⟨0, 0x05#8, 1, 0⟩, ⟨1, 0x04#8, 1, 1⟩, ⟨2, 0x05#8, 1, 2⟩] ∧
    (∀ ck ∈ [(⟨0, 0x05#8, 1, 0⟩ : Chunk), ⟨1, 0x04#8, 1, 1⟩, ⟨2, 0x05#8, 1, 2⟩], ck.width = 1) := by decide
theorem witness_PlainWriteSendsTwoSegments :
    State.reset.crcEn = false ∧ LengthOk State.reset.cfg (List.replicate 255 0x34#8).length := by
  rw [List.length_replicate]
  exact ⟨rfl, by decide, by decide⟩
theorem witness_PlainReadReturnsTheSecondSegment :
    State.reset.crcEn = false ∧ LengthOk State.reset.cfg (1#8 : Byte).toNat ∧
    1 + (1#8 : Byte).toNat ≤ { State.reset with devRx := [0xEE#8, 0x5A#8] }.devRx.length :=
  ⟨rfl, ⟨by decide, by decide⟩, by decide⟩

/-- Of a refused length: an empty buffer, one of 256 bytes, and a read of 0. -/
theorem witness_TransferChecks_length :
    ¬ LengthOk State.reset.cfg ([] : List Byte).length ∧ ¬ LengthOk State.reset.cfg (List.replicate 256 0#8).length ∧
    ¬ LengthOk State.reset.cfg (0#8 : Byte).toNat := by
  rw [List.length_replicate]
  unfold LengthOk
  decide
/-- Of a refused plan and of a missing table, for a write of two bytes and a read of as many. -/
theorem witness_TransferChecks_plan_and_table :
    let s := { State.reset with crcEn := true }
    LengthOk s.cfg [0#8, 0#8].length ∧ LengthOk s.cfg (2#8 : Byte).toNat ∧ s.crcEn = true ∧ s.crc = none ∧
    chunkPlan s.cfg s.addrAsc s.streamLen 0x00#8 2 = none ∧ chunkPlan s.cfg s.addrAsc s.streamLen 0x01#8 2 ≠ none := by
  unfold LengthOk
  decide
theorem witness_CrcWriteSendsThePlannedChunks :
    secured.crcEn = true ∧ LengthOk secured.cfg [0x12#8, 0x30#8, 0x45#8, 0x60#8].length ∧
    secured.crc = some ⟨0x07#8, tblgen 0x07#8⟩ ∧
    chunkPlan secured.cfg secured.addrAsc secured.streamLen 0x2C#8 4 = some [⟨0, 0x2C#8, 2, 0⟩, ⟨1, 0x2A#8, 2, 2⟩] :=
  ⟨rfl, ⟨by decide, by decide⟩, rfl, by decide⟩
theorem witness_CrcReadChecksTheFirstChunkOnly :
    secured.crcEn = true ∧ LengthOk secured.cfg (4#8 : Byte).toNat ∧ secured.crc = some ⟨0x07#8, tblgen 0x07#8⟩ ∧
    chunkPlan secured.cfg secured.addrAsc secured.streamLen 0x2C#8 (4#8 : Byte).toNat =
      some [⟨0, 0x2C#8, 2, 0⟩, ⟨1, 0x2A#8, 2, 2⟩] :=
  ⟨rfl, ⟨by decide, by decide⟩, rfl, by decide⟩
theorem witness_SingleChunkWriteGoesByTheEcho :
    let s := { secured with devRx := [0xEE#8, 0xEE#8, 0x57#8] }
    s.crcEn = true ∧ LengthOk s.cfg [0x34#8].length ∧ s.crc = some ⟨0x07#8, tblgen 0x07#8⟩ ∧
    chunkPlan s.cfg s.addrAsc s.streamLen 0x0A#8 1 = some [⟨0, 0x0A#8, 1, 0⟩] ∧
    s.devRx = [0xEE#8, 0xEE#8] ++ 0x57#8 :: [] ∧ [0xEE#8, 0xEE#8].length = [0x34#8].length + 1 :=
  ⟨rfl, ⟨by decide, by decide⟩, rfl, by decide, rfl, rfl⟩
/-- For `RegisterWriteIsAMaskedTransfer` and `RegisterReadIsAMaskedTransfer`, a register of each width. -/
theorem witness_RegisterTransfers :
    reglen State.reset.cfg 0x0A#8 = 1 ∧ reglen State.reset.cfg 0x2C#8 = 2 ∧ reglen State.reset.cfg 0x4B#8 = 3 ∧
    ¬ (State.reset.cfg.secBase.toNat ≤ (0x4B#8 : Byte).toNat ∧ State.reset.addrAsc = true) ∧
    State.reset.crcEn = false ∧ LengthOk State.reset.cfg 3 :=
  ⟨by decide, by decide, by decide, by decide, rfl, by decide, by decide⟩
theorem witness_RegisterChecksRefuse :
    reglen State.reset.cfg 0x4C#8 = 0 ∧
    ({ State.reset with addrAsc := true }.cfg.secBase.toNat ≤ (0x28#8 : Byte).toNat ∧
      { State.reset with addrAsc := true }.addrAsc = true) := by decide
theorem witness_OneRegisterIsOneChunk :
    reglen Config.default 0x4B#8 ≠ 0 ∧ (0x4B#8 : Byte).toNat < Config.default.addrSpace := by decide

/-! Control registers and the scaler. -/

/-- For `CsrWriteSetsTheFields` and `CsrReadAnswersTheRegister`, every clause at the ends of its range. -/
theorem witness_CsrNumbers :
    (0#8 : Byte).toNat = 0 ∧ (1#8 : Byte).toNat = 1 ∧ (2#8 : Byte).toNat = 2 ∧ (3#8 : Byte).toNat = 3 ∧
    (4#8 : Byte).toNat = 4 ∧ 5 ≤ (5#8 : Byte).toNat ∧ 3 ≤ (3#8 : Byte).toNat ∧ 5 ≤ (255#8 : Byte).toNat ∧
    State.reset.crc = none ∧ tabled.crc = some ⟨0x07#8, tblgen 0x07#8⟩ := by
  refine ⟨?_, ?_, ?_, ?_, ?_, ?_, ?_, ?_, rfl, rfl⟩ <;> decide
theorem witness_CsrReadsBackUnderItsMask : (2#8 : Byte).toNat ≤ 2 := by decide

/-- The last channel, the last input field and the largest legal value of each bounded field; and the first channel, field
and values that are refused. -/
theorem witness_ChannelWriteResult :
    (1#8 : Byte).toNat < State.reset.cfg.nCh ∧ (7#8 : Byte).toNat ≤ 7 ∧ legal State.reset.cfg 7 1 ∧
    legal State.reset.cfg 1 4 ∧ legal State.reset.cfg 1 255 ∧ legal State.reset.cfg 5 3 ∧ legal State.reset.cfg 3 65535 ∧
    State.reset.ch[(1#8 : Byte).toNat]? = some (Channel.atReset Config.default) ∧
    State.reset.cfg.nCh ≤ (2#8 : Byte).toNat ∧ 8 ≤ (8#8 : Byte).toNat ∧ ¬ legal State.reset.cfg 7 2 ∧
    ¬ legal State.reset.cfg 1 5 ∧ ¬ legal State.reset.cfg 4 4 := by
  unfold legal
  refine ⟨?_, ?_, ?_, ?_, ?_, ?_, ?_, rfl, ?_, ?_, ?_, ?_, ?_⟩ <;> decide
theorem witness_ChannelReadResult :
    (1#8 : Byte).toNat < State.reset.cfg.nCh ∧ (8#8 : Byte).toNat ≤ 8 ∧
    State.reset.ch[(1#8 : Byte).toNat]? = some (Channel.atReset Config.default) ∧
    State.reset.cfg.nCh ≤ (2#8 : Byte).toNat ∧ 9 ≤ (9#8 : Byte).toNat := ⟨by decide, by decide, rfl, by decide, by decide⟩
theorem witness_ChannelFieldReadsBack :
    State.reset.cfg.wf = true ∧ (1#8 : Byte).toNat < State.reset.cfg.nCh ∧ State.reset.ch.length = State.reset.cfg.nCh ∧
    (1#8 : Byte).toNat ≤ 7 ∧ legal State.reset.cfg (1#8 : Byte).toNat (255#16 : BitVec 16).toNat := by
  unfold legal
  decide

/-- For `SC.SCALE` and `SC.OFFSET`: a valid channel, an invalid one, and the first that does not exist. -/
theorem witness_ReadOuts :
    fastAndInvalid.ch[(0#8 : Byte).toNat]?.map Channel.derived = some (some ⟨0, 305176, -32768, 0⟩) ∧
    fastAndInvalid.ch[(1#8 : Byte).toNat]?.map Channel.derived = some none ∧
    (1#8 : Byte).toNat < fastAndInvalid.cfg.nCh ∧ fastAndInvalid.cfg.nCh ≤ (2#8 : Byte).toNat := by decide
/-- For `SC.CONV`: a channel in each mode, the largest image that fast mode takes and the smallest it does not, an invalid
channel. -/
theorem witness_ConversionResult :
    fastAndInvalid.ch[(0#8 : Byte).toNat]?.map Channel.fast = some 1#1 ∧
    fastAndInvalid.ch[(0#8 : Byte).toNat]?.map Channel.derived = some (some ⟨0, 305176, -32768, 0⟩) ∧
    scaled.ch[(0#8 : Byte).toNat]?.map Channel.fast = some 0#1 ∧
    fastAndInvalid.ch[(1#8 : Byte).toNat]?.map Channel.derived = some none ∧
    (0xFFFF#24 : BitVec 24).toNat < 0x010000 ∧ 0x010000 ≤ (0x010000#24 : BitVec 24).toNat ∧
    (1#8 : Byte).toNat < scaled.cfg.nCh ∧ scaled.cfg.nCh ≤ (2#8 : Byte).toNat := by decide
theorem witness_IgnoredImageBits :
    (scaled.ch[(0#8 : Byte).toNat]?.map Channel.fast = some 0#1 ∧
      (0xFFFF00#24 : BitVec 24).extractLsb' 8 16 = (0xFFFFFF#24 : BitVec 24).extractLsb' 8 16) ∧
    (fastAndInvalid.ch[(0#8 : Byte).toNat]?.map Channel.fast = some 1#1 ∧
      (0xFFFF#24 : BitVec 24).toNat < 0x010000 ∧ (0xFFF0#24 : BitVec 24).toNat < 0x010000 ∧
      (0xFFFF#24 : BitVec 24).extractLsb' 0 16 &&& fastAndInvalid.cfg.dac16Mask =
        (0xFFF0#24 : BitVec 24).extractLsb' 0 16 &&& fastAndInvalid.cfg.dac16Mask) ∧
    (0#8 : Byte).toNat < scaled.cfg.nCh := by decide
/-- For `ScaleIsRoundedToNearest` and `OffsetIsTruncated`: a range below zero and one that begins at zero. -/
theorem witness_Formulas :
    Config.default.wf = true ∧ Config.default.sourceValues = true ∧ (⟨-10000, 10000⟩ : Range).vMin < (⟨-10000, 10000⟩ : Range).vMax ∧
    (⟨0, 2500⟩ : Range).vMin < (⟨0, 2500⟩ : Range).vMax ∧ (⟨-10000, 10000⟩ : Range).vMin ≤ 0 ∧
    0 ≤ (⟨0, 2500⟩ : Range).vMin := by
  decide
theorem witness_DerivedExactlyWhenSpanIsPositive :
    Config.default.wf = true ∧ Channel.zero.override = 0#1 ∧
    ({ Channel.zero with range := Config.default.rangeCustom }).range = Config.default.rangeCustom := by decide
theorem witness_CustomRangeFormula :
    Config.default.sourceValues = true ∧ customChannel.goff = 0 ∧ customChannel.gainP = customChannel.gainN ∧
    customRange Config.default customChannel = ⟨-75, 5075⟩ := by decide
theorem witness_DerivedNumbersFitTheirWidths :
    Config.default.wf = true ∧ Config.default.sourceValues = true ∧
    deriveChannel Config.default customChannel = some ⟨0, 78583, -954, -407766⟩ := by decide
theorem witness_SignedFieldsReadBack :
    ((-2 ^ 63 : Int) ≤ -2 ^ 63 ∧ (-2 ^ 63 : Int) < 2 ^ 63) ∧ ((-2 ^ 31 : Int) ≤ 2 ^ 31 - 1 ∧ (2 ^ 31 - 1 : Int) < 2 ^ 31) := by
  decide
theorem witness_OverrideWithoutResistanceInvalidates :
    (1#8 : Byte).toNat < State.reset.cfg.nCh ∧
    State.reset.ch[(1#8 : Byte).toNat]? = some (Channel.atReset Config.default) ∧
    (Channel.atReset Config.default).rfb = 0 ∧ (Channel.atReset Config.default).fast = 0#1 :=
  ⟨by decide, rfl, rfl, rfl⟩
theorem witness_CustomSequenceSetsTheChannel :
    (1#8 : Byte).toNat < State.reset.cfg.nCh ∧
    State.reset.ch[(1#8 : Byte).toNat]? = some (Channel.atReset Config.default) ∧
    (1#16 : BitVec 16).toNat ≤ 1 ∧ (3#16 : BitVec 16).toNat ≤ 3 :=
  ⟨by decide, rfl, by decide, by decide⟩

end Sys2Proof.Tests
end

section
/-! SUPPORT. The statements of the family 00_scope (spec/00_scope.md R6): what a step is made of, and what every command
does for the host. -/

namespace Sys2Proof.Machine

open Sys2Proof.Spec

/-! ### What a command keeps until it is answered -/

/-- What no command touches before it answers: the responses given, the host's list and the parameters; the bus trace
only grows (20_memory.md R41, 70_reset_and_hazards.md R148). -/
structure HostSideKept (s t : State) : Prop where
  responses : t.responses = s.responses
  inputs : t.inputs = s.inputs
  cfg : t.cfg = s.cfg
  bus : s.bus <+: t.bus

theorem HostSideKept.refl (s : State) : HostSideKept s s := ⟨rfl, rfl, rfl, List.prefix_rfl⟩

theorem BusOnly.hostSideKept {s t : State} (h : BusOnly s t) : HostSideKept s t := by
  obtain ⟨_, _, es, rfl⟩ := h
  exact ⟨rfl, rfl, rfl, es, rfl⟩

theorem State.memWrite_busOnly (s : State) (addr : Byte) (data : List Byte) : BusOnly s (s.memWrite addr data).2 := by
  rcases s.memWrite_spec addr data with ⟨_, hrefused⟩ | ⟨_, hbus, _⟩
  · rw [hrefused]
    exact BusOnly.refl s
  · exact hbus

theorem State.memRead_busOnly (s : State) (addr : Byte) (n : Nat) : BusOnly s (s.memRead addr n).2 := by
  rcases s.memRead_spec addr n with ⟨_, hrefused⟩ | ⟨_, hbus, _⟩
  · rw [hrefused]
    exact BusOnly.refl s
  · exact hbus

theorem HostSideKept.setChan (s : State) (ch : Byte) (x : Channel) : HostSideKept s (s.setChan ch x) :=
  ⟨rfl, rfl, rfl, List.prefix_rfl⟩

theorem State.csrWrite_hostSideKept {s t : State} {v : Byte} {r : Csr} (h : s.csrWrite v r = some t) :
    HostSideKept s t := by
  obtain ⟨_, _, _, _, _, rfl⟩ := State.csrWrite_spec h
  exact ⟨rfl, rfl, rfl, List.prefix_rfl⟩

/-! ### Every command ends by answering once -/

/-- The outcome of a command given in `s`: it computes a state in which the host's side is as it was, and ends there
with one `State.finish`. -/
def Finishes (s : State) (o : Outcome) : Prop := ∃ m e, o = .next (m.finish e) ∧ HostSideKept s m

theorem Finishes.finish {s m : State} (h : HostSideKept s m) (e : Ending) : Finishes s (.next (m.finish e)) :=
  ⟨m, e, rfl, h⟩

theorem Finishes.respond_ok {s m : State} (h : HostSideKept s m) (data : List Byte) :
    Finishes s (.next (m.respond .ok data)) :=
  Finishes.finish h (.ok data)

theorem Finishes.answer (s : State) (e : Ending) : Finishes s (.next (s.finish e)) :=
  Finishes.finish (HostSideKept.refl s) e

theorem Finishes.raise (s : State) (st : Status) : Finishes s (.next (s.raise st)) := Finishes.answer s (.raise st)

theorem execCrcInit_finishes (poly : Byte) (s : State) : Finishes s (execCrcInit poly s) := by
  have hkept : HostSideKept s { s with crc := some ⟨poly, tblgen poly⟩ } := ⟨rfl, rfl, rfl, List.prefix_rfl⟩
  exact Finishes.respond_ok hkept []

theorem execRegWr_finishes (addr : Byte) (value : BitVec 24) (s : State) : Finishes s (execRegWr addr value s) := by
  unfold execRegWr
  split
  · exact Finishes.raise s _
  · exact Finishes.finish (s.memWrite_busOnly _ _).hostSideKept _

theorem execRegRd_finishes (addr : Byte) (s : State) : Finishes s (execRegRd addr s) := by
  unfold execRegRd
  split
  · exact Finishes.raise s _
  · exact Finishes.finish (s.memRead_busOnly _ _).hostSideKept _

theorem execCsrWr_finishes (csr value : Byte) (s : State) : Finishes s (execCsrWr csr value s) := by
  unfold execCsrWr
  split
  · exact Finishes.raise s _
  · split
    · exact Finishes.raise s _
    · next t hwrite => exact Finishes.respond_ok (State.csrWrite_hostSideKept hwrite) []

theorem execCsrRd_finishes (csr : Byte) (s : State) : Finishes s (execCsrRd csr s) := by
  unfold execCsrRd
  split
  · exact Finishes.raise s _
  · exact Finishes.answer s _

theorem execChWr_finishes (ch field : Byte) (value : BitVec 16) (s : State) :
    Finishes s (execChWr ch field value s) := by
  unfold execChWr
  split
  · exact Finishes.raise s _
  · split
    · exact Finishes.raise s _
    · split
      · exact Finishes.respond_ok (HostSideKept.setChan s ch _) []
      · exact Finishes.raise s _

theorem execChRd_finishes (ch field : Byte) (s : State) : Finishes s (execChRd ch field s) := by
  unfold execChRd
  split
  · exact Finishes.raise s _
  · split
    · exact Finishes.raise s _
    · exact Finishes.answer s (.ok _)

theorem execScScale_finishes (ch : Byte) (s : State) : Finishes s (execScScale ch s) := by
  unfold execScScale
  split
  · exact Finishes.raise s _
  · exact Finishes.answer s _

theorem execScOffset_finishes (ch : Byte) (s : State) : Finishes s (execScOffset ch s) := by
  unfold execScOffset
  split
  · exact Finishes.raise s _
  · exact Finishes.answer s _

theorem execScConv_finishes (ch : Byte) (image : BitVec 24) (s : State) : Finishes s (execScConv ch image s) := by
  unfold execScConv
  split
  · exact Finishes.raise s _
  · split
    · exact Finishes.raise s _
    · exact Finishes.answer s _

/-- Every host command finishes, whatever the state (R6). The wire forms do not: they give no response (log 5). -/
theorem exec_finishes (i : Instr) (s : State) (hi : i.isCommand = true) : Finishes s (exec i s) := by
  cases i with
  | crcInit poly => exact execCrcInit_finishes poly s
  | crcCalc seed data => exact Finishes.answer s _
  | xferWr addr data => exact Finishes.finish (s.memWrite_busOnly addr data).hostSideKept _
  | xferRd addr n => exact Finishes.finish (s.memRead_busOnly addr n.toNat).hostSideKept _
  | regWr addr value => exact execRegWr_finishes addr value s
  | regRd addr => exact execRegRd_finishes addr s
  | csrWr csr value => exact execCsrWr_finishes csr value s
  | csrRd csr => exact execCsrRd_finishes csr s
  | chWr ch field value => exact execChWr_finishes ch field value s
  | chRd ch field => exact execChRd_finishes ch field s
  | scScale ch => exact execScScale_finishes ch s
  | scOffset ch => exact execScOffset_finishes ch s
  | scConv ch image => exact execScConv_finishes ch image s
  | wireWr addr => cases hi
  | wireRd addr => cases hi

/-- Settles O14: the one `State.finish` that every command ends with gives its one response. -/
theorem everyCommandGivesOneResponse : Obligations.EveryCommandGivesOneResponse := by
  intro i s hi
  obtain ⟨m, e, hexec, hkept⟩ := exec_finishes i s hi
  refine ⟨m.finish e, e.response, hexec, ?_, ?_, ?_, ?_⟩
  · rw [State.finish_responses, hkept.responses]
  · rw [State.finish_inputs, hkept.inputs]
  · rw [State.finish_cfg, hkept.cfg]
  · rw [State.finish_bus]
    exact hkept.bus

/-! ### The step -/

/-- Taking the next input drops the head of the host's list and nothing else. -/
theorem State.takeInput_of_inputs {s : State} {x : Input} {rest : List Input} (h : s.inputs = x :: rest) :
    s.takeInput = { s with inputs := rest } := by
  simp [State.takeInput, h]

theorem step_of_decode {s : State} {bytes : List Byte} {rest : List Input} {i : Instr}
    (hin : s.inputs = .command bytes :: rest) (hdec : decode bytes = .instr i) :
    step s = exec i { s with inputs := rest } := by
  rw [← State.takeInput_of_inputs hin]
  simp only [step, hin, hdec]

/-- Settles O6: the step decodes the head of the host's list and runs it at the state without that head. -/
theorem stepRunsTheDecodedCommand : Obligations.StepRunsTheDecodedCommand :=
  fun _ _ _ _ hin hdec => step_of_decode hin hdec

/-! ### The instruction byte under the parameters of R4 -/

theorem readBit_and_addrMask {c : Config} (h : c.wf = true) : c.readBit &&& c.addrMask = 0#8 := by
  simp only [Config.wf, Bool.and_eq_true, beq_iff_eq] at h
  tauto

theorem readBit_ne_zero {c : Config} (h : c.wf = true) : c.readBit ≠ 0#8 := by
  have hbit : (List.range 8).any (fun k => c.readBit == 1#8 <<< k) = true := by
    simp only [Config.wf, Bool.and_eq_true] at h
    tauto
  obtain ⟨k, hk, hk'⟩ := List.any_eq_true.mp hbit
  rw [beq_iff_eq.mp hk']
  clear hk'
  decide +revert

/-- A masked address has no direction bit: the two masks are disjoint (R4). -/
theorem maskedAddr_and_readBit {c : Config} (h : c.wf = true) (addr : Byte) :
    addr &&& c.addrMask &&& c.readBit = 0#8 := by
  rw [BitVec.and_assoc, BitVec.and_comm c.addrMask, readBit_and_addrMask h, BitVec.and_zero]

theorem maskedAddr_and_addrMask (c : Config) (addr : Byte) :
    addr &&& c.addrMask &&& c.addrMask = addr &&& c.addrMask := by
  rw [BitVec.and_assoc, BitVec.and_self]

/-- A write's instruction byte reads back as the wire form of a write at the masked address (R46). -/
theorem decodeWire_instrWr {c : Config} (h : c.wf = true) (addr : Byte) :
    decodeWire c (instrWr c addr) = .wireWr (addr &&& c.addrMask) := by
  rw [decodeWire, instrWr, if_pos (maskedAddr_and_readBit h addr), maskedAddr_and_addrMask]

/-- A read's instruction byte reads back as the wire form of a read at the masked address (R46). -/
theorem decodeWire_instrRd {c : Config} (h : c.wf = true) (addr : Byte) :
    decodeWire c (instrRd c addr) = .wireRd (addr &&& c.addrMask) := by
  have hread : (addr &&& c.addrMask ||| c.readBit) &&& c.readBit = c.readBit := by
    rw [BitVec.and_or_distrib_right, maskedAddr_and_readBit h, BitVec.and_self, BitVec.zero_or]
  have haddr : (addr &&& c.addrMask ||| c.readBit) &&& c.addrMask = addr &&& c.addrMask := by
    rw [BitVec.and_or_distrib_right, maskedAddr_and_addrMask, readBit_and_addrMask h, BitVec.or_zero]
  rw [decodeWire, instrRd, hread, if_neg (readBit_ne_zero h), haddr]

/-- Masking the address first does not change the instruction byte. -/
theorem instrByte_masked (c : Config) (addr : Byte) (rd : Bool) :
    instrByte c (addr &&& c.addrMask) rd = instrByte c addr rd := by
  rw [instrByte, maskedAddr_and_addrMask, instrByte]

/-! ### A plain transfer is its wire form and then its data segment -/

theorem badLength_of_lengthOk {c : Config} {n : Nat} (h : LengthOk c n) : badLength c n = false := by
  obtain ⟨hpos, hmax⟩ := h
  simp only [badLength, Bool.or_eq_false_iff, decide_eq_false_iff_not]
  omega

/-- With CRC off a write of a legal length is `plain_write` (R71, R73). -/
theorem State.memWrite_plain {s : State} {data : List Byte} (hcrc : s.crcEn = false) (hlen : LengthOk s.cfg data.length)
    (addr : Byte) : s.memWrite addr data = s.plainWrite (instrByte s.cfg addr false) data := by
  simp [State.memWrite, badLength_of_lengthOk hlen, hcrc]

/-- With CRC off a read of a legal length is `plain_read` (R72, R73). -/
theorem State.memRead_plain {s : State} {n : Nat} (hcrc : s.crcEn = false) (hlen : LengthOk s.cfg n) (addr : Byte) :
    s.memRead addr n = s.plainRead (instrByte s.cfg addr true) n := by
  simp [State.memRead, badLength_of_lengthOk hlen, hcrc]

/-- A plain write goes on from the state that the wire form of its masked address leaves. -/
theorem exec_xferWr_of_wire (s : State) {u : State} {addr : Byte} {data : List Byte} (hcrc : s.crcEn = false)
    (hlen : LengthOk s.cfg data.length) (hwire : exec (.wireWr (addr &&& s.cfg.addrMask)) s = .next u) :
    exec (.xferWr addr data) s = .next ((u.afterSeg data true).respond .ok []) := by
  have hplain := State.plainWrite_of_wire hwire data
  rw [instrByte_masked, ← State.memWrite_plain hcrc hlen] at hplain
  simp only [exec, execXferWr, hplain, State.finish]

/-- A plain read goes on from the state that the wire form of its masked address leaves, and answers the bytes of the
second segment. -/
theorem exec_xferRd_of_wire (s : State) {u : State} {addr n : Byte} (hcrc : s.crcEn = false)
    (hlen : LengthOk s.cfg n.toNat) (hwire : exec (.wireRd (addr &&& s.cfg.addrMask)) s = .next u) :
    exec (.xferRd addr n) s = .next ((u.afterSeg (List.replicate n.toNat s.cfg.txFill) true).respond .ok
      (u.answer (List.replicate n.toNat s.cfg.txFill) true)) := by
  have hplain := State.plainRead_of_wire hwire n.toNat
  rw [instrByte_masked, ← State.memRead_plain hcrc hlen] at hplain
  simp only [exec, execXferRd, hplain, State.finish]

/-- The wire form of a write ends with chip select held (R47). -/
theorem exec_wireWr_holds (addr : Byte) (s : State) : ∃ u, exec (.wireWr addr) s = .next u ∧ u.csActive = true :=
  ⟨_, rfl, rfl⟩

/-- The wire form of a read ends with chip select held (R47). -/
theorem exec_wireRd_holds (addr : Byte) (s : State) : ∃ u, exec (.wireRd addr) s = .next u ∧ u.csActive = true :=
  ⟨_, rfl, rfl⟩

/-- Settles O7: the bytes received are the device's answer to the data segment, after the wire form has run. -/
theorem stepRunsTheWireByte : Obligations.StepRunsTheWireByte := by
  intro s bytes rest addr n data hin hwf hcrc
  constructor
  · intro hdec hlen
    obtain ⟨u, hwire, hheld⟩ := exec_wireWr_holds (addr &&& s.cfg.addrMask) { s with inputs := rest }
    refine ⟨u, u.answer data true, u.answer_length data true, ?_, hheld, ?_⟩
    · rw [decodeWire_instrWr hwf, hwire]
    · rw [step_of_decode hin hdec, exec_xferWr_of_wire { s with inputs := rest } hcrc hlen hwire]
      rfl
  · intro hdec hlen
    obtain ⟨u, hwire, hheld⟩ := exec_wireRd_holds (addr &&& s.cfg.addrMask) { s with inputs := rest }
    refine ⟨u, u.answer (List.replicate n.toNat s.cfg.txFill) true, ?_, ?_, hheld, ?_⟩
    · rw [State.answer_length, List.length_replicate]
    · rw [decodeWire_instrRd hwf, hwire]
    · rw [step_of_decode hin hdec, exec_xferRd_of_wire { s with inputs := rest } hcrc hlen hwire]
      simp only [State.afterSeg, State.respond, List.length_replicate, Bool.not_true]

end Sys2Proof.Machine
end

section
/-! SUPPORT. The statements of the family 10_state (spec/10_state.md): the state after reset, what each instruction does
to the block's state, and the invariants that every step keeps. -/

namespace Sys2Proof.Machine

open Sys2Proof.Spec

/-! ### What the constraints and the source's values of R4 say -/

theorem Config.nRanges_le_of_wf {c : Config} (h : c.wf = true) : c.nRanges ≤ 255 := by
  simp only [Config.wf, Bool.and_eq_true, decide_eq_true_eq] at h
  tauto

theorem Config.codeSpan_micro_of_source {c : Config} (h : c.sourceValues = true) :
    c.codeSpan = 65536 ∧ c.micro = 1000000 := by
  simp only [Config.sourceValues, Bool.and_eq_true, beq_iff_eq] at h
  tauto

/-! ### The state after reset -/

/-- The range of a channel that still has the reset inputs is the first of the table (R26, R108). -/
theorem rangeOf_zero (c : Config) : rangeOf c Channel.zero = c.rangeTable[0]? := rfl

/-- What R114 gives where a source has the range `r`. -/
theorem deriveChannel_of_range {c : Config} {ch : Channel} {r : Range} (h : rangeOf c ch = some r) :
    deriveChannel c ch = if Range.span r ≤ 0 then none else some (derivedOf c r) := by
  simp only [deriveChannel, h]

theorem atReset_derived (c : Config) : (Channel.atReset c).derived = deriveChannel c Channel.zero := rfl

/-- R26: the numbers it prints for the default range. -/
theorem atReset_derived_of_source {c : Config} (hsrc : c.sourceValues = true) (hrange : c.rangeTable[0]? = some ⟨0, 2500⟩) :
    (Channel.atReset c).derived = some ⟨0, 38147, 0, 0⟩ := by
  obtain ⟨hspan, hmicro⟩ := Config.codeSpan_micro_of_source hsrc
  rw [atReset_derived, deriveChannel_of_range ((rangeOf_zero c).trans hrange), derivedOf, hspan, hmicro]
  decide

/-- Settles O10: every channel after reset is `Channel.atReset`. -/
theorem stateAfterReset : Obligations.StateAfterReset := by
  intro c
  refine ⟨rfl, rfl, rfl, rfl, rfl, rfl, rfl, rfl, rfl, rfl, List.length_replicate, ?_, ?_⟩
  · intro x hx
    obtain rfl := List.eq_of_mem_replicate hx
    exact ⟨rfl, rfl, rfl, rfl, rfl, rfl, rfl, rfl, rfl⟩
  · intro hsrc hrange x hx
    obtain rfl := List.eq_of_mem_replicate hx
    exact atReset_derived_of_source hsrc hrange

theorem atReset_fresh (c : Config) : (Channel.atReset c).Fresh c := rfl

theorem atReset_legal {c : Config} (h : c.rangeTable ≠ []) : (Channel.atReset c).Legal c :=
  .inl (List.length_pos_iff.mpr h)

/-- The invariant speaks of the parameters, the channels and the table only. -/
theorem State.Inv.congr {s t : State} (h : s.Inv) (hcfg : t.cfg = s.cfg) (hch : t.ch = s.ch) (hcrc : t.crc = s.crc) :
    t.Inv where
  params := hcfg ▸ h.params
  someRange := hcfg ▸ h.someRange
  channels := by rw [hcfg, hch, h.channels]
  fresh := by rw [hcfg, hch]; exact h.fresh
  legal := by rw [hcfg, hch]; exact h.legal
  table := by rw [hcrc]; exact h.table

theorem resetOf_inv {c : Config} (hwf : c.wf = true) (hrange : c.rangeTable ≠ []) : (State.resetOf c).Inv where
  params := hwf
  someRange := hrange
  channels := List.length_replicate
  fresh := by
    intro ch hch
    obtain rfl := List.eq_of_mem_replicate hch
    exact atReset_fresh c
  legal := by
    intro ch hch
    obtain rfl := List.eq_of_mem_replicate hch
    exact atReset_legal hrange
  table := nofun

/-- Settles O11: the default record is one of those that meet the constraints of R4. -/
theorem resetMeetsTheInvariants : Obligations.ResetMeetsTheInvariants :=
  ⟨fun _ hwf hrange => ⟨resetOf_inv hwf hrange, rfl⟩, resetOf_inv (by decide) (by decide), rfl⟩

/-! ### What an instruction can do to the block -/

/-- What instruction `i` can make of the state `s` before its response is noted: nothing; a transfer, which
touches the bus side only and, in a command, leaves chip select released if it was (R24); the table of `CRC.INIT` (R13);
the configuration of `CSR.WR` (R20); one channel of `CH.WR`, with a legal value (R106). -/
inductive BlockEffect (s : State) : Instr → State → Prop where
  | unchanged (i : Instr) : BlockEffect s i s
  | transfer {i : Instr} {m : State} (huses : usesBus i = true) (hbus : BusOnly s m)
      (hquiet : i.isCommand = true → s.Quiet → m.Quiet) : BlockEffect s i m
  | table (poly : Byte) : BlockEffect s (.crcInit poly) { s with crc := some ⟨poly, tblgen poly⟩ }
  | config {csr value : Byte} {r : Csr} {m : State} (hwrite : s.csrWrite value r = some m) :
      BlockEffect s (.csrWr csr value) m
  | channel {ch field : Byte} {value : BitVec 16} {f : ChField} (hch : ch.toNat < s.cfg.nCh)
      (hlegal : legalValue s.cfg f value = true) :
      BlockEffect s (.chWr ch field value) (s.setChan ch ((s.chan ch).write s.cfg f value))

/-- The outcome is a next state: an effect of the instruction, and the responses given. -/
def Performs (s : State) (i : Instr) (o : Outcome) : Prop :=
  ∃ m rs, BlockEffect s i m ∧ o = .next { m with responses := rs }

theorem Performs.finish {s m : State} {i : Instr} (h : BlockEffect s i m) (e : Ending) :
    Performs s i (.next (m.finish e)) :=
  ⟨m, _, h, by rw [State.finish_eq]⟩

theorem Performs.answer (s : State) (i : Instr) (e : Ending) : Performs s i (.next (s.finish e)) :=
  Performs.finish (.unchanged i) e

theorem Performs.raise (s : State) (i : Instr) (st : Status) : Performs s i (.next (s.raise st)) :=
  Performs.answer s i (.raise st)

theorem Performs.respond_ok {s m : State} {i : Instr} (h : BlockEffect s i m) (data : List Byte) :
    Performs s i (.next (m.respond .ok data)) :=
  Performs.finish h (.ok data)

/-- A transfer's segments come in frames, each of which releases chip select (R24, R82, R84). -/
theorem State.memWrite_quiet {s : State} (h : s.Quiet) (addr : Byte) (data : List Byte) :
    (s.memWrite addr data).2.Quiet := by
  rcases s.memWrite_spec addr data with ⟨_, hrefused⟩ | ⟨_, _, hquiet⟩
  · rw [hrefused]
    exact h
  · exact hquiet h

theorem State.memRead_quiet {s : State} (h : s.Quiet) (addr : Byte) (n : Nat) : (s.memRead addr n).2.Quiet := by
  rcases s.memRead_spec addr n with ⟨_, hrefused⟩ | ⟨_, _, hquiet⟩
  · rw [hrefused]
    exact h
  · exact hquiet h

theorem BlockEffect.memWrite (s : State) {i : Instr} (hi : usesBus i = true) (addr : Byte) (data : List Byte) :
    BlockEffect s i (s.memWrite addr data).2 :=
  .transfer hi (s.memWrite_busOnly addr data) fun _ h => State.memWrite_quiet h addr data

theorem BlockEffect.memRead (s : State) {i : Instr} (hi : usesBus i = true) (addr : Byte) (n : Nat) :
    BlockEffect s i (s.memRead addr n).2 :=
  .transfer hi (s.memRead_busOnly addr n) fun _ h => State.memRead_quiet h addr n

/-- The instruction byte of a wire form goes out in a held segment (R47). -/
theorem Performs.wire (s : State) {i : Instr} (huses : usesBus i = true) (hi : i.isCommand = false) (tx : List Byte) :
    Performs s i (.next (s.afterSeg tx false)) :=
  ⟨s.afterSeg tx false, s.responses, .transfer huses (BusOnly.afterSeg s tx false) (by simp [hi]), rfl⟩

theorem execRegWr_performs (addr : Byte) (value : BitVec 24) (s : State) :
    Performs s (.regWr addr value) (execRegWr addr value s) := by
  unfold execRegWr
  split
  · exact Performs.raise s _ _
  · exact Performs.finish (BlockEffect.memWrite s rfl _ _) _

theorem execRegRd_performs (addr : Byte) (s : State) : Performs s (.regRd addr) (execRegRd addr s) := by
  unfold execRegRd
  split
  · exact Performs.raise s _ _
  · exact Performs.finish (BlockEffect.memRead s rfl _ _) _

theorem execCsrWr_performs (csr value : Byte) (s : State) :
    Performs s (.csrWr csr value) (execCsrWr csr value s) := by
  unfold execCsrWr
  split
  · exact Performs.raise s _ _
  · split
    · exact Performs.raise s _ _
    · next hwrite => exact Performs.respond_ok (.config hwrite) []

theorem execCsrRd_performs (csr : Byte) (s : State) : Performs s (.csrRd csr) (execCsrRd csr s) := by
  unfold execCsrRd
  split
  · exact Performs.raise s _ _
  · exact Performs.answer s _ _

theorem State.lt_nCh_of_noChan {s : State} {ch : Byte} (h : ¬ s.noChan ch = true) : ch.toNat < s.cfg.nCh := by
  simpa [State.noChan] using h

theorem execChWr_performs (ch field : Byte) (value : BitVec 16) (s : State) :
    Performs s (.chWr ch field value) (execChWr ch field value s) := by
  unfold execChWr
  split
  · exact Performs.raise s _ _
  · next hch =>
    split
    · exact Performs.raise s _ _
    · split
      · next hlegal => exact Performs.respond_ok (.channel (State.lt_nCh_of_noChan hch) hlegal) []
      · exact Performs.raise s _ _

theorem execChRd_performs (ch field : Byte) (s : State) : Performs s (.chRd ch field) (execChRd ch field s) := by
  unfold execChRd
  split
  · exact Performs.raise s _ _
  · split
    · exact Performs.raise s _ _
    · exact Performs.answer s _ (.ok _)

theorem execScScale_performs (ch : Byte) (s : State) : Performs s (.scScale ch) (execScScale ch s) := by
  unfold execScScale
  split
  · exact Performs.raise s _ _
  · exact Performs.answer s _ _

theorem execScOffset_performs (ch : Byte) (s : State) : Performs s (.scOffset ch) (execScOffset ch s) := by
  unfold execScOffset
  split
  · exact Performs.raise s _ _
  · exact Performs.answer s _ _

theorem execScConv_performs (ch : Byte) (image : BitVec 24) (s : State) :
    Performs s (.scConv ch image) (execScConv ch image s) := by
  unfold execScConv
  split
  · exact Performs.raise s _ _
  · split
    · exact Performs.raise s _ _
    · exact Performs.answer s _ _

/-- Every instruction, whatever the state, has one of the effects of `BlockEffect`. -/
theorem exec_performs (i : Instr) (s : State) : Performs s i (exec i s) := by
  cases i with
  | crcInit poly => exact Performs.respond_ok (.table poly) []
  | crcCalc seed data => exact Performs.answer s _ _
  | xferWr addr data => exact Performs.finish (BlockEffect.memWrite s rfl addr data) _
  | xferRd addr n => exact Performs.finish (BlockEffect.memRead s rfl addr n.toNat) _
  | regWr addr value => exact execRegWr_performs addr value s
  | regRd addr => exact execRegRd_performs addr s
  | csrWr csr value => exact execCsrWr_performs csr value s
  | csrRd csr => exact execCsrRd_performs csr s
  | chWr ch field value => exact execChWr_performs ch field value s
  | chRd ch field => exact execChRd_performs ch field s
  | scScale ch => exact execScScale_performs ch s
  | scOffset ch => exact execScOffset_performs ch s
  | scConv ch image => exact execScConv_performs ch image s
  | wireWr addr => exact Performs.wire s rfl rfl _
  | wireRd addr => exact Performs.wire s rfl rfl _

/-- Everything a next state of an instruction can be. -/
theorem exec_cases {i : Instr} {s t : State} (h : exec i s = .next t) :
    ∃ m rs, BlockEffect s i m ∧ t = { m with responses := rs } := by
  obtain ⟨m, rs, heffect, hexec⟩ := exec_performs i s
  rw [h] at hexec
  exact ⟨m, rs, heffect, Host.Outcome.next.inj hexec⟩

/-! ### Who writes the table and the configuration -/

theorem BusOnly.sameBlock {s t : State} (h : BusOnly s t) : SameBlock s t := by
  obtain ⟨_, _, _, rfl⟩ := h
  exact ⟨rfl, rfl, rfl, rfl, rfl, rfl, rfl, rfl, rfl⟩

theorem State.csrWrite_crc {s t : State} {v : Byte} {r : Csr} (h : s.csrWrite v r = some t) : t.crc = s.crc := by
  obtain ⟨_, _, _, _, _, rfl⟩ := State.csrWrite_spec h
  rfl

theorem State.csrWrite_ch {s t : State} {v : Byte} {r : Csr} (h : s.csrWrite v r = some t) : t.ch = s.ch := by
  obtain ⟨_, _, _, _, _, rfl⟩ := State.csrWrite_spec h
  rfl

theorem State.csrWrite_quiet {s t : State} {v : Byte} {r : Csr} (h : s.csrWrite v r = some t) (hs : s.Quiet) :
    t.Quiet := by
  obtain ⟨_, _, _, _, _, rfl⟩ := State.csrWrite_spec h
  exact hs

/-- Settles O17: of the effects an instruction can have, only the one of `CRC.INIT` is on the table. -/
theorem onlyCrcInitWritesTheTable : Obligations.OnlyCrcInitWritesTheTable := by
  intro i s t hi hexec
  obtain ⟨m, rs, heffect, rfl⟩ := exec_cases hexec
  cases heffect with
  | unchanged => rfl
  | transfer _ hbus _ => exact hbus.sameBlock.crc
  | table poly => exact absurd rfl (hi poly)
  | config hwrite => exact (State.csrWrite_crc hwrite :)
  | channel => rfl

/-- Settles O18: of the effects an instruction can have, only the one of `CSR.WR` is on the configuration. -/
theorem onlyCsrWriteChangesTheConfiguration : Obligations.OnlyCsrWriteChangesTheConfiguration := by
  intro i s t hi hexec
  obtain ⟨m, rs, heffect, rfl⟩ := exec_cases hexec
  cases heffect with
  | unchanged => exact ⟨rfl, rfl, rfl, rfl, rfl⟩
  | transfer _ hbus _ =>
    obtain ⟨_, hcrcEn, haddrAsc, hsingle, hkeep, hlen, _, _, _⟩ := hbus.sameBlock
    exact ⟨hcrcEn, haddrAsc, hsingle, hkeep, hlen⟩
  | table => exact ⟨rfl, rfl, rfl, rfl, rfl⟩
  | config => exact absurd rfl (hi _ _)
  | channel => exact ⟨rfl, rfl, rfl, rfl, rfl⟩

/-! ### The invariant of the scaler under a channel write -/

/-- A legal `RANGE` value is kept by the 8 bits of the field (R21): ranges and marker are below 256. -/
theorem range_toNat_of_legalValue {c : Config} (hwf : c.wf = true) {v : BitVec 16} (h : legalValue c .range v = true) :
    (v.setWidth 8).toNat = v.toNat := by
  have hn := Config.nRanges_le_of_wf hwf
  have hcustom := c.rangeCustom.isLt
  simp only [legalValue, Bool.or_eq_true, decide_eq_true_eq] at h
  rw [BitVec.toNat_setWidth]
  omega

/-- A legal value of any input field leaves `RANGE` legal (R21, R106). -/
theorem Channel.setField_legal {c : Config} (hwf : c.wf = true) {ch : Channel} (hch : ch.Legal c) {f : ChField}
    {v : BitVec 16} (h : legalValue c f v = true) : (ch.setField v f).Legal c := by
  cases f with
  | range =>
    simp only [Channel.Legal, Channel.setField, range_toNat_of_legalValue hwf h]
    simpa [legalValue] using h
  | fast | override | rfb | gainP | gainN | goff | gpol | valid => exact hch

theorem Channel.write_fresh {c : Config} {ch : Channel} (hch : ch.Fresh c) (f : ChField) (v : BitVec 16) :
    (ch.write c f v).Fresh c := (Channel.write_spec c ch f v hch).1

theorem Channel.write_legal {c : Config} (hwf : c.wf = true) {ch : Channel} (hch : ch.Legal c) {f : ChField}
    {v : BitVec 16} (h : legalValue c f v = true) : (ch.write c f v).Legal c := by
  unfold Channel.write
  split
  · exact Channel.setField_legal hwf hch h
  · exact Channel.setField_legal hwf hch h

/-- A channel number below `N_CH` names one of the state's channels. -/
theorem State.Inv.chan_mem {s : State} (h : s.Inv) {ch : Byte} (hch : ch.toNat < s.cfg.nCh) : s.chan ch ∈ s.ch := by
  have hlt : ch.toNat < s.ch.length := h.channels ▸ hch
  rw [State.chan, List.getD_eq_getElem _ _ hlt]
  exact List.getElem_mem hlt

/-- Putting a fresh and legal channel in the place of one keeps the invariant. -/
theorem State.Inv.setChan {s : State} (h : s.Inv) (ch : Byte) {x : Channel} (hfresh : x.Fresh s.cfg)
    (hlegal : x.Legal s.cfg) : (s.setChan ch x).Inv where
  params := h.params
  someRange := h.someRange
  channels := by rw [State.setChan_ch, List.length_set, State.setChan_cfg, h.channels]
  fresh := fun y hy => (List.mem_or_eq_of_mem_set hy).elim (h.fresh y) fun e => e ▸ hfresh
  legal := fun y hy => (List.mem_or_eq_of_mem_set hy).elim (h.legal y) fun e => e ▸ hlegal
  table := h.table

/-! ### What every step keeps -/

theorem BlockEffect.inv {s m : State} {i : Instr} (h : BlockEffect s i m) (hs : s.Inv) : m.Inv := by
  cases h with
  | unchanged => exact hs
  | transfer _ hbus _ => exact hs.congr hbus.sameBlock.cfg hbus.sameBlock.ch hbus.sameBlock.crc
  | table poly => exact { hs with table := by rintro _ ⟨⟩; rfl }
  | config hwrite =>
    exact hs.congr (State.csrWrite_hostSideKept hwrite).cfg (State.csrWrite_ch hwrite) (State.csrWrite_crc hwrite)
  | channel hch hlegal =>
    have hmem := hs.chan_mem hch
    exact hs.setChan _ (Channel.write_fresh (hs.fresh _ hmem) _ _)
      (Channel.write_legal hs.params (hs.legal _ hmem) hlegal)

theorem BlockEffect.quiet {s m : State} {i : Instr} (h : BlockEffect s i m) (hi : i.isCommand = true) (hs : s.Quiet) :
    m.Quiet := by
  cases h with
  | unchanged => exact hs
  | transfer _ _ hquiet => exact hquiet hi hs
  | table => exact hs
  | config hwrite => exact State.csrWrite_quiet hwrite hs
  | channel => exact hs

/-- What the decoder reads from bytes is a host command, never a wire form (R45, R53). -/
theorem decodeOperands_isCommand {o : Opcode} {operands : List Byte} {i : Instr}
    (h : decodeOperands o operands = some i) : i.isCommand = true := by
  unfold decodeOperands at h
  split at h
  case h_2 | h_3 =>
    split at h
    · cases h
      rfl
    · cases h
  case h_14 => cases h
  all_goals
    cases h
    rfl

theorem decode_isCommand {bytes : List Byte} {i : Instr} (h : decode bytes = .instr i) : i.isCommand = true := by
  unfold decode at h
  split at h
  · cases h
  · split at h
    · cases h
    · split at h
      · cases h
      · next hoperands =>
        cases h
        exact decodeOperands_isCommand hoperands

/-- Everything a step can do: idle, run a command, answer what is no command, or reset (R6, R54, R145). -/
theorem step_cases {s t : State} (h : step s = .next t) :
    t = s ∨ (∃ i, i.isCommand = true ∧ exec i s.takeInput = .next t) ∨ (∃ st, t = s.takeInput.raise st) ∨
    t = s.takeInput.applyReset := by
  unfold step at h
  split at h
  · exact .inl (Host.Outcome.next.inj h).symm
  · split at h
    · next hdecode => exact .inr (.inl ⟨_, decode_isCommand hdecode, h⟩)
    · exact .inr (.inr (.inl ⟨_, (Host.Outcome.next.inj h).symm⟩))
  · exact .inr (.inr (.inr (Host.Outcome.next.inj h).symm))

theorem State.Inv.takeInput {s : State} (h : s.Inv) : s.takeInput.Inv := h.congr rfl rfl rfl

theorem State.Inv.applyReset {s : State} (h : s.Inv) : s.applyReset.Inv :=
  (resetOf_inv h.params h.someRange).congr rfl rfl rfl

/-- Settles O12: each effect of an instruction keeps the invariant, and so does a reset. -/
theorem stepKeepsTheInvariant : Obligations.StepKeepsTheInvariant := by
  intro s t hs hstep
  rcases step_cases hstep with rfl | ⟨i, _, hexec⟩ | ⟨st, rfl⟩ | rfl
  · exact hs
  · obtain ⟨m, rs, heffect, rfl⟩ := exec_cases hexec
    exact (heffect.inv hs.takeInput).congr rfl rfl rfl
  · exact hs.congr rfl rfl rfl
  · exact hs.takeInput.applyReset

/-- Settles O13: the bytes a step decodes are a command, whose transfers release chip select; a reset releases it. -/
theorem stepLeavesChipSelectReleased : Obligations.StepLeavesChipSelectReleased := by
  intro s t hs hstep
  rcases step_cases hstep with rfl | ⟨i, hi, hexec⟩ | ⟨st, rfl⟩ | rfl
  · exact hs
  · obtain ⟨m, rs, heffect, rfl⟩ := exec_cases hexec
    exact heffect.quiet hi hs
  · exact hs
  · exact rfl

end Sys2Proof.Machine
end

section
/-! SUPPORT. The widths of the derived numbers (spec/10_state.md R22) and the 64 bits of a conversion (43_scaler.md R122). -/

namespace Sys2Proof.Machine

/-! ### Division toward zero -/

theorem abs_tdiv_mul_le (a : Int) {b : Int} (hb : 0 < b) : |a.tdiv b| * b ≤ |a| := by
  obtain ⟨n, rfl⟩ := Int.eq_ofNat_of_zero_le hb.le
  rw [Int.abs_eq_natAbs, Int.abs_eq_natAbs, Int.natAbs_tdiv, Int.natAbs_natCast]
  exact_mod_cast Nat.div_mul_le_self a.natAbs n

theorem abs_tdiv_le {a b k : Int} (hb : 0 < b) (h : |a| ≤ k * b) : |a.tdiv b| ≤ k :=
  le_of_mul_le_mul_right ((abs_tdiv_mul_le a hb).trans h) hb

theorem abs_tdiv_lt {a b k : Int} (hb : 0 < b) (h : |a| < k * b) : |a.tdiv b| < k :=
  lt_of_mul_lt_mul_right ((abs_tdiv_mul_le a hb).trans_lt h) hb.le

theorem abs_tmod_lt (a : Int) {b : Int} (hb : 0 < b) : |a.tmod b| < b :=
  abs_lt.mpr ⟨Int.lt_tmod_of_pos a hb, Int.tmod_lt_of_pos a hb⟩

/-! ### The range a channel uses has 32-bit millivolts -/

/-- The millivolts of the range are 32-bit numbers (00_scope.md R4 P13). -/
def Range.Fits32 (r : Range) : Prop := -2147483648 ≤ r.vMin ∧ r.vMax ≤ 2147483647

theorem Config.tableRange_fits32 {c : Config} (h : c.wf = true) {r : Range} (hr : r ∈ c.rangeTable) :
    Range.Fits32 r := by
  have hall : c.rangeTable.all (fun r => decide (r.vMin < r.vMax) && decide (-2147483648 ≤ r.vMin) &&
      decide (r.vMax ≤ 2147483647)) = true := by
    simp only [Config.wf, Bool.and_eq_true] at h
    tauto
  have hbounds := List.all_eq_true.mp hall r hr
  simp only [Bool.and_eq_true, decide_eq_true_eq] at hbounds
  obtain ⟨⟨_, hmin⟩, hmax⟩ := hbounds
  exact ⟨hmin, hmax⟩

theorem gainFactor_bounds {c : Config} (h : c.gainTable = [1000, 500, 250, 125]) (g : BitVec 2) :
    0 ≤ gainFactor c g ∧ gainFactor c g ≤ 1000 := by
  rw [gainFactor, h]
  revert g
  decide

theorem abs_signedOffset_le (ch : Channel) : |signedOffset ch| ≤ 65535 := by
  have hgoff := ch.goff.isLt
  rw [signedOffset, abs_le]
  split
  · omega
  · omega

/-- The term that R111 adds to or takes from the reference voltage stays far below 32 bits. -/
theorem abs_customTerm_le {x : Int} (hx : |x| ≤ 66559000) (rfb : BitVec 16) :
    |Int.tdiv (x * 2575 * rfb.toNat) (1024 * 1000 * 1000)| ≤ 16777216 := by
  have hrfb : (rfb.toNat : Int) ≤ 65535 := by have := rfb.isLt; omega
  refine abs_tdiv_le (by norm_num) ?_
  calc |x * 2575 * rfb.toNat| = |x| * 2575 * rfb.toNat := by
        rw [abs_mul, abs_mul, Nat.abs_cast, abs_of_pos (by norm_num : (0 : Int) < 2575)]
    _ ≤ 66559000 * 2575 * 65535 := by gcongr
    _ ≤ 16777216 * (1024 * 1000 * 1000) := by norm_num

theorem customRange_fits32 {c : Config} (h : c.sourceValues = true) (ch : Channel) :
    Range.Fits32 (customRange c ch) := by
  obtain ⟨hgain, hvref, hk⟩ : c.gainTable = [1000, 500, 250, 125] ∧ c.vrefMv = 2500 ∧ c.kMilli = 2575 := by
    simp only [Config.sourceValues, Bool.and_eq_true, beq_iff_eq] at h
    tauto
  have hgp := gainFactor_bounds hgain ch.gainP
  have hgn := gainFactor_bounds hgain ch.gainN
  have hoff := abs_le.mp (abs_signedOffset_le ch)
  obtain ⟨_, hmax⟩ := abs_le.mp (abs_customTerm_le
    (abs_le.mpr (by omega) : |1024 * gainFactor c ch.gainN + 1000 * signedOffset ch| ≤ 66559000) ch.rfb)
  obtain ⟨_, hmin⟩ := abs_le.mp (abs_customTerm_le
    (abs_le.mpr (by omega) : |1024 * gainFactor c ch.gainP - 1000 * signedOffset ch| ≤ 66559000) ch.rfb)
  rw [Range.Fits32, customRange, hvref, hk]
  constructor
  · linarith
  · linarith

theorem rangeOf_fits32 {c : Config} (hwf : c.wf = true) (hsrc : c.sourceValues = true) {ch : Channel} {r : Range}
    (h : rangeOf c ch = some r) : Range.Fits32 r := by
  unfold rangeOf at h
  split at h
  · obtain rfl := Option.some.inj h
    exact customRange_fits32 hsrc ch
  · exact Config.tableRange_fits32 hwf (List.mem_of_getElem? h)

/-- Derived numbers come from the range in use, whose span is positive (R113, R114). -/
theorem deriveChannel_some {c : Config} {ch : Channel} {d : Derived} (h : deriveChannel c ch = some d) :
    ∃ r, rangeOf c ch = some r ∧ 0 < Range.span r ∧ d = derivedOf c r := by
  unfold deriveChannel at h
  split at h
  · cases h
  · next r hr =>
    split at h
    · cases h
    · next hspan => exact ⟨r, hr, not_le.mp hspan, (Option.some.inj h).symm⟩

/-! ### The derived numbers of a range with 32-bit millivolts -/

section derived

variable {c : Config} {r : Range} (hsrc : c.sourceValues = true) (hspan : 0 < Range.span r) (hfits : Range.Fits32 r)
include hsrc hspan

theorem derivedOf_scaleInt : (derivedOf c r).scaleInt = Range.span r / 65536 := by
  rw [derivedOf, (Config.codeSpan_micro_of_source hsrc).1, Int.tdiv_eq_ediv_of_nonneg hspan.le]

theorem derivedOf_scaleFrac_bounds : 0 ≤ (derivedOf c r).scaleFrac ∧ (derivedOf c r).scaleFrac < 1000000 := by
  obtain ⟨hcode, hmicro⟩ := Config.codeSpan_micro_of_source hsrc
  have hhalf : Int.tdiv 65536 2 = 32768 := rfl
  have hfrac : (derivedOf c r).scaleFrac = (Range.span r % 65536 * 1000000 + 32768) / 65536 := by
    rw [derivedOf, hcode, hmicro, hhalf, Int.tmod_eq_emod_of_nonneg hspan.le]
    exact Int.tdiv_eq_ediv_of_nonneg (by omega)
  omega

theorem derivedOf_offsetFrac_bounds : |(derivedOf c r).offsetFrac| < 1000000 := by
  obtain ⟨hcode, hmicro⟩ := Config.codeSpan_micro_of_source hsrc
  rw [derivedOf, hcode, hmicro]
  refine abs_tdiv_lt hspan ?_
  rw [abs_mul, abs_of_pos (by norm_num : (0 : Int) < 1000000), mul_comm]
  exact mul_lt_mul_of_pos_left (abs_tmod_lt _ hspan) (by norm_num)

include hfits

theorem derivedOf_scaleInt_bounds : 0 ≤ (derivedOf c r).scaleInt ∧ (derivedOf c r).scaleInt < 2 ^ 16 := by
  obtain ⟨hmin, hmax⟩ := hfits
  rw [derivedOf_scaleInt hsrc hspan]
  rw [Range.span] at hspan ⊢
  omega

/-- The offset's integer part is the quotient of a number of at most 47 bits by the span. -/
theorem derivedOf_offsetInt_mul_span_le : |(derivedOf c r).offsetInt| * Range.span r ≤ 2 ^ 47 := by
  have hmin : |r.vMin| ≤ 2147483648 := by
    obtain ⟨hmin, hmax⟩ := hfits
    rw [Range.span] at hspan
    exact abs_le.mpr (by omega)
  have hoffset : (derivedOf c r).offsetInt = Int.tdiv (r.vMin * 65536) (Range.span r) := by
    rw [derivedOf, (Config.codeSpan_micro_of_source hsrc).1]
  calc |(derivedOf c r).offsetInt| * Range.span r ≤ |r.vMin * 65536| := by
        rw [hoffset]
        exact abs_tdiv_mul_le _ hspan
    _ = |r.vMin| * 65536 := by rw [abs_mul, abs_of_pos (by norm_num : (0 : Int) < 65536)]
    _ ≤ 2 ^ 47 := by omega

theorem derivedOf_offsetInt_le : |(derivedOf c r).offsetInt| ≤ 2 ^ 47 :=
  calc |(derivedOf c r).offsetInt| ≤ |(derivedOf c r).offsetInt| * Range.span r :=
        le_mul_of_one_le_right (abs_nonneg _) hspan
    _ ≤ 2 ^ 47 := derivedOf_offsetInt_mul_span_le hsrc hspan hfits

/-- A wide span makes the scale large and the offset small: their product stays within 48 bits. -/
theorem derivedOf_offsetInt_mul_scale_le : |(derivedOf c r).offsetInt| * ((derivedOf c r).scaleInt + 1) ≤ 2 ^ 48 := by
  have hscale : (derivedOf c r).scaleInt + 1 ≤ Range.span r * 2 := by
    rw [derivedOf_scaleInt hsrc hspan]
    omega
  calc |(derivedOf c r).offsetInt| * ((derivedOf c r).scaleInt + 1)
      ≤ |(derivedOf c r).offsetInt| * (Range.span r * 2) := mul_le_mul_of_nonneg_left hscale (abs_nonneg _)
    _ = |(derivedOf c r).offsetInt| * Range.span r * 2 := by ring
    _ ≤ 2 ^ 48 := by linarith [derivedOf_offsetInt_mul_span_le hsrc hspan hfits]

end derived

/-! ### A conversion -/

/-- The millivolts of a code (R120), for derived numbers of the widths of R22 whose product is bounded. -/
theorem abs_convertCode_le {c : Config} (hmicro : c.micro = 1000000) {d : Derived} (hsi : 0 ≤ d.scaleInt)
    (hsi' : d.scaleInt < 2 ^ 16) (hsf : 0 ≤ d.scaleFrac) (hsf' : d.scaleFrac < 1000000)
    (hof : |d.offsetFrac| < 1000000) (hprod : |d.offsetInt| * (d.scaleInt + 1) ≤ 2 ^ 48) (code : BitVec 16) :
    |Int.tdiv (convertCode c d code) 1000000| ≤ 2 ^ 32 + 2 ^ 48 := by
  have hcode : (code.toNat : Int) ≤ 65535 := by have := code.isLt; omega
  have hsum : |(code.toNat : Int) * 1000000 + (d.offsetInt * 1000000 + d.offsetFrac)| ≤
      (65536 + |d.offsetInt|) * 1000000 := by
    have hoi := abs_le.mp (le_refl |d.offsetInt|)
    have hof := abs_lt.mp hof
    exact abs_le.mpr (by omega)
  have hscale : |d.scaleInt * 1000000 + d.scaleFrac| ≤ (d.scaleInt + 1) * 1000000 := abs_le.mpr (by omega)
  rw [convertCode, hmicro]
  refine abs_tdiv_le (by norm_num) (abs_tdiv_le (by norm_num) ?_)
  rw [abs_mul]
  calc |(code.toNat : Int) * 1000000 + (d.offsetInt * 1000000 + d.offsetFrac)| * |d.scaleInt * 1000000 + d.scaleFrac|
      ≤ (65536 + |d.offsetInt|) * 1000000 * ((d.scaleInt + 1) * 1000000) :=
        mul_le_mul hsum hscale (abs_nonneg _) (by positivity)
    _ = (65536 * (d.scaleInt + 1) + |d.offsetInt| * (d.scaleInt + 1)) * 1000000 * 1000000 := by ring
    _ ≤ (2 ^ 32 + 2 ^ 48) * 1000000 * 1000000 := by omega

/-- Settles O57: the numbers are those of a range with 32-bit millivolts. -/
theorem derivedNumbersFitTheirWidths : Obligations.DerivedNumbersFitTheirWidths := by
  intro c x d code hwf hsrc hderive
  obtain ⟨r, hrange, hspan, rfl⟩ := deriveChannel_some hderive
  have hfits := rangeOf_fits32 hwf hsrc hrange
  obtain ⟨_, hmicro⟩ := Config.codeSpan_micro_of_source hsrc
  obtain ⟨hsi, hsi'⟩ := derivedOf_scaleInt_bounds hsrc hspan hfits
  obtain ⟨hsf, hsf'⟩ := derivedOf_scaleFrac_bounds hsrc hspan
  have hoi := derivedOf_offsetInt_le hsrc hspan hfits
  have hof := derivedOf_offsetFrac_bounds hsrc hspan
  have hprod := derivedOf_offsetInt_mul_scale_le hsrc hspan hfits
  obtain ⟨hmin, hmax⟩ := abs_le.mp (abs_convertCode_le hmicro hsi hsi' hsf hsf' hof hprod code)
  exact ⟨⟨hsi, hsi'⟩, ⟨hsf, hsf'⟩, abs_le.mp hoi, abs_lt.mp hof, by linarith, by linarith⟩

end Sys2Proof.Machine
end

section
/-! SUPPORT. The statements of the family 20_memory (spec/20_memory.md): which instructions reach the bus, and the widths
of the registers. -/

namespace Sys2Proof.Machine

open Sys2Proof.Spec

/-! ### What leaves the bus alone -/

theorem SameBus.refl (s : State) : SameBus s s := ⟨rfl, rfl, rfl⟩

theorem State.csrWrite_sameBus {s t : State} {v : Byte} {r : Csr} (h : s.csrWrite v r = some t) : SameBus s t := by
  obtain ⟨_, _, _, _, _, rfl⟩ := State.csrWrite_spec h
  exact ⟨rfl, rfl, rfl⟩

/-- Of the effects an instruction can have, only a transfer's is on the bus side (R38, R105). -/
theorem BlockEffect.sameBus {s m : State} {i : Instr} (h : BlockEffect s i m) (hi : usesBus i = false) : SameBus s m := by
  cases h with
  | unchanged => exact SameBus.refl s
  | transfer huses => simp [hi] at huses
  | table => exact ⟨rfl, rfl, rfl⟩
  | config hwrite => exact State.csrWrite_sameBus hwrite
  | channel => exact ⟨rfl, rfl, rfl⟩

/-- Settles O20: the effect leaves the bus side alone, and so does noting the response. -/
theorem onlyTransfersUseTheBus : Obligations.OnlyTransfersUseTheBus := by
  intro i s t hi hexec
  obtain ⟨m, rs, heffect, rfl⟩ := exec_cases hexec
  obtain ⟨hbus, hdevRx, hcs⟩ := heffect.sameBus hi
  exact ⟨hbus, hdevRx, hcs⟩

/-! ### The width tiers -/

theorem Config.tiers_le_of_wf {c : Config} (h : c.wf = true) :
    c.t2Base.toNat ≤ c.t3Base.toNat ∧ c.t3Base.toNat ≤ c.addrMax.toNat + 1 := by
  simp only [Config.wf, Bool.and_eq_true, decide_eq_true_eq] at h
  tauto

/-- Everything the width at an address can be, for any bounds: each case of R32, with those above it excluded. -/
theorem reglen_cases (c : Config) (a : Byte) :
    (reglen c a = 0 ∧ c.addrMax.toNat < a.toNat) ∨
    (reglen c a = 3 ∧ a.toNat ≤ c.addrMax.toNat ∧ c.t3Base.toNat ≤ a.toNat) ∨
    (reglen c a = 2 ∧ a.toNat ≤ c.addrMax.toNat ∧ a.toNat < c.t3Base.toNat ∧ c.t2Base.toNat ≤ a.toNat) ∨
    (reglen c a = 1 ∧ a.toNat ≤ c.addrMax.toNat ∧ a.toNat < c.t3Base.toNat ∧ a.toNat < c.t2Base.toNat) := by
  unfold reglen
  split_ifs <;> omega

/-- Settles O29: the bounds of R4 are in order, so the four cases are the four tiers. -/
theorem registerWidthTiers : Obligations.RegisterWidthTiers := by
  intro c a hwf
  obtain ⟨ht2, ht3⟩ := Config.tiers_le_of_wf hwf
  obtain ⟨hwidth, _⟩ | ⟨hwidth, _, _⟩ | ⟨hwidth, _, _, _⟩ | ⟨hwidth, _, _, _⟩ := reglen_cases c a <;>
    rw [hwidth] <;> omega

end Sys2Proof.Machine
end

section
/-! SUPPORT. The statements of the family 30_encoding (spec/30_encoding.md): decoder and encoder agree, the instruction
byte, signed result fields, what is no command, and the custom sequence. -/

namespace Sys2Proof

/-! ### The opcode map -/

theorem Opcode.ofByte_byte (o : Opcode) : Opcode.ofByte o.byte = some o := by
  cases o <;> rfl

theorem Opcode.byte_of_ofByte {b : Byte} {o : Opcode} (h : Opcode.ofByte b = some o) : o.byte = b := by
  unfold Opcode.ofByte at h
  split at h
  case h_14 => cases h
  all_goals
    next hb =>
      cases h
      exact BitVec.eq_of_toNat_eq hb.symm

theorem Opcode.ofByte_eq_none_iff (b : Byte) : Opcode.ofByte b = none ↔ ∀ o : Opcode, o.byte ≠ b := by
  constructor
  · rintro h o rfl
    simp [Opcode.ofByte_byte] at h
  · intro h
    cases ho : Opcode.ofByte b with
    | none => rfl
    | some o => exact absurd (Opcode.byte_of_ofByte ho) (h o)

/-- The opcodes in the order of R53. -/
def Opcode.all : List Opcode :=
  [.crcInit, .crcCalc, .xferWr, .xferRd, .regWr, .regRd, .csrWr, .csrRd, .chWr, .chRd, .scScale, .scOffset, .scConv]

theorem Opcode.mem_all (o : Opcode) : o ∈ Opcode.all := by
  cases o <;> decide

/-! ### What the decoder answers -/

/-- The decoder answers an instruction exactly where an opcode byte of the map is followed by that opcode's operands. -/
theorem decode_eq_instr_iff {bytes : List Byte} {i : Instr} :
    decode bytes = .instr i ↔
      ∃ o operands, bytes = Opcode.byte o :: operands ∧ decodeOperands o operands = some i := by
  constructor
  · intro h
    unfold decode at h
    split at h
    · cases h
    · split at h
      · cases h
      · next o ho =>
        split at h
        · cases h
        · next hoperands =>
          cases h
          exact ⟨o, _, by rw [Opcode.byte_of_ofByte ho], hoperands⟩
  · rintro ⟨o, operands, rfl, hoperands⟩
    simp only [decode, Opcode.ofByte_byte, hoperands]

/-- The decoder calls an opcode byte reserved exactly where the map has no opcode for it (R54). -/
theorem decode_eq_reserved_iff (op : Byte) (rest : List Byte) :
    decode (op :: rest) = .rejected (.reservedOpcode op) ↔ Opcode.ofByte op = none := by
  cases ho : Opcode.ofByte op with
  | none => simp [decode, ho]
  | some o => cases hoperands : decodeOperands o rest <;> simp [decode, ho, hoperands]

end Sys2Proof

namespace Sys2Proof.Machine

open Sys2Proof.Spec

/-! ### Words in big-endian bytes -/

theorem two_pow_bits {n w : Nat} (hw : w = 8 * n) : 2 ^ w = 256 ^ n := by
  rw [hw, pow_mul]
  rfl

/-- A word of `n` bytes reads back from them. -/
theorem ofNat_unbe_beBytes {n w : Nat} (hw : w = 8 * n) (v : BitVec w) :
    BitVec.ofNat w (unbe (beBytes n v.toNat)) = v := by
  rw [unbe_beBytes, ← two_pow_bits hw, Nat.mod_eq_of_lt v.isLt, BitVec.ofNat_toNat, BitVec.setWidth_eq]

/-- The word that bytes give is written as those bytes. -/
theorem beBytes_ofNat_unbe {w : Nat} (s : List Byte) (hw : w = 8 * s.length) :
    beBytes s.length (BitVec.ofNat w (unbe s)).toNat = s := by
  rw [BitVec.toNat_ofNat, two_pow_bits hw, Nat.mod_eq_of_lt (unbe_lt s), beBytes_unbe]

/-! ### The encoder and the decoder of operands are inverse -/

/-- A length that the one-byte field `n` can express reads back from it (R53). -/
theorem toNat_ofNat_length {data : List Byte} (h : data.length ≤ 255) :
    data.length = (BitVec.ofNat 8 data.length).toNat := by
  rw [BitVec.toNat_ofNat]
  omega

/-- A well-formed command is encoded as an opcode byte and operands that decode to it. -/
theorem encode_eq_opcode_cons (c : Config) {i : Instr} (hi : i.isCommand = true) (hwf : i.wf c = true) :
    ∃ o operands, encode c i = Opcode.byte o :: operands ∧ decodeOperands o operands = some i := by
  cases i with
  | crcInit poly => exact ⟨.crcInit, _, rfl, rfl⟩
  | crcCalc seed data => exact ⟨.crcCalc, _, rfl, if_pos (toNat_ofNat_length (of_decide_eq_true hwf))⟩
  | xferWr addr data => exact ⟨.xferWr, _, rfl, if_pos (toNat_ofNat_length (of_decide_eq_true hwf))⟩
  | xferRd addr n => exact ⟨.xferRd, _, rfl, rfl⟩
  | regWr addr value =>
    exact ⟨.regWr, _, rfl, congrArg (some ∘ Instr.regWr addr) (ofNat_unbe_beBytes (n := 3) rfl value)⟩
  | regRd addr => exact ⟨.regRd, _, rfl, rfl⟩
  | csrWr csr value => exact ⟨.csrWr, _, rfl, rfl⟩
  | csrRd csr => exact ⟨.csrRd, _, rfl, rfl⟩
  | chWr ch field value =>
    exact ⟨.chWr, _, rfl, congrArg (some ∘ Instr.chWr ch field) (ofNat_unbe_beBytes (n := 2) rfl value)⟩
  | chRd ch field => exact ⟨.chRd, _, rfl, rfl⟩
  | scScale ch => exact ⟨.scScale, _, rfl, rfl⟩
  | scOffset ch => exact ⟨.scOffset, _, rfl, rfl⟩
  | scConv ch image =>
    exact ⟨.scConv, _, rfl, congrArg (some ∘ Instr.scConv ch) (ofNat_unbe_beBytes (n := 3) rfl image)⟩
  | wireWr addr => cases hi
  | wireRd addr => cases hi

/-- Settles O1: the decoder finds the opcode of the first byte and reads the operands behind it. -/
theorem decodeReadsEncodedCommand : Obligations.DecodeReadsEncodedCommand :=
  fun c _ hi hwf => decode_eq_instr_iff.mpr (encode_eq_opcode_cons c hi hwf)

/-- The field `n` of a buffer that decodes is the one the encoder writes, and the length fits it. -/
theorem ofNat_length_of_field {data : List Byte} {n : Byte} (h : data.length = n.toNat) :
    data.length ≤ 255 ∧ BitVec.ofNat 8 data.length = n := by
  have hn := n.isLt
  exact ⟨by omega, by rw [h, BitVec.ofNat_toNat, BitVec.setWidth_eq]⟩

/-- Operands that decode are well-formed, and the encoder writes them back behind their opcode byte. -/
theorem encode_of_decodeOperands (c : Config) {o : Opcode} {operands : List Byte} {i : Instr}
    (h : decodeOperands o operands = some i) : i.wf c = true ∧ encode c i = o.byte :: operands := by
  unfold decodeOperands at h
  split at h
  case h_2 | h_3 =>
    split at h
    · next hlen =>
      obtain ⟨hle, hfield⟩ := ofNat_length_of_field hlen
      cases h
      exact ⟨decide_eq_true hle, by rw [encode, hfield]⟩
    · cases h
  case h_5 addr v2 v1 v0 =>
    cases h
    exact ⟨rfl, congrArg (Opcode.regWr.byte :: addr :: ·) (beBytes_ofNat_unbe [v2, v1, v0] rfl)⟩
  case h_9 ch field v1 v0 =>
    cases h
    exact ⟨rfl, congrArg (Opcode.chWr.byte :: ch :: field :: ·) (beBytes_ofNat_unbe [v1, v0] rfl)⟩
  case h_13 ch v2 v1 v0 =>
    cases h
    exact ⟨rfl, congrArg (Opcode.scConv.byte :: ch :: ·) (beBytes_ofNat_unbe [v2, v1, v0] rfl)⟩
  case h_14 => cases h
  all_goals
    cases h
    exact ⟨rfl, rfl⟩

/-- Settles O2: the bytes are an opcode byte and operands, and the encoder writes both back. -/
theorem acceptedBytesAreTheEncoding : Obligations.AcceptedBytesAreTheEncoding := by
  intro c bytes i hdecode
  obtain ⟨o, operands, rfl, hoperands⟩ := decode_eq_instr_iff.mp hdecode
  exact ⟨decode_isCommand hdecode, encode_of_decodeOperands c hoperands⟩

/-! ### The instruction byte -/

/-- The instruction byte of a write is the masked address alone (R46). -/
theorem instrByte_write (c : Config) (addr : Byte) : instrByte c addr false = instrWr c addr := BitVec.or_zero

/-- The instruction byte of a read is the masked address with the read bit (R46). -/
theorem instrByte_read (c : Config) (addr : Byte) : instrByte c addr true = instrRd c addr := rfl

/-- Settles O3: the read-back is that of a legal record, whose two masks are disjoint. -/
theorem wireByteCarriesAddressAndDirection : Obligations.WireByteCarriesAddressAndDirection := by
  intro c addr hwf
  refine ⟨?_, ?_, decodeWire_instrWr hwf addr, decodeWire_instrRd hwf addr⟩
  · rw [encode, instrByte_write, instrWr]
  · rw [encode, instrByte_read, instrRd]

/-! ### Signed result fields -/

@[simp] theorem beSigned_length (n : Nat) (z : Int) : (beSigned n z).length = n := beBytes_length n _

/-- A signed field of `n` bytes holds the two's complement of the number in `8n` bits. -/
theorem ofNat_unbe_beSigned {n w : Nat} (hw : w = 8 * n) (z : Int) :
    BitVec.ofNat w (unbe (beSigned n z)) = BitVec.ofInt w z := by
  apply BitVec.eq_of_toNat_eq
  rw [beSigned, unbe_beBytes, ← two_pow_bits hw, BitVec.toNat_ofNat, BitVec.toNat_ofInt, Nat.mod_mod, Nat.mod_eq_of_lt]
  have hpos : (0 : Int) < (2 ^ w : Nat) := by positivity
  have := Int.emod_lt_of_pos z hpos
  have := Int.emod_nonneg z hpos.ne'
  omega

/-- A number of the field's width reads back from the signed field (R52). -/
theorem toInt_unbe_beSigned {n w : Nat} (hw : w = 8 * n) (hn : 0 < n) {z : Int} (hmin : -2 ^ (w - 1) ≤ z)
    (hmax : z < 2 ^ (w - 1)) : (BitVec.ofNat w (unbe (beSigned n z))).toInt = z := by
  rw [ofNat_unbe_beSigned hw]
  exact BitVec.toInt_ofInt_eq_self (by omega) hmin hmax

/-- Settles O58: the fields of 8 and of 4 bytes. -/
theorem signedFieldsReadBack : Obligations.SignedFieldsReadBack :=
  ⟨fun z hmin hmax => ⟨beSigned_length 8 z, toInt_unbe_beSigned rfl (by decide) hmin hmax⟩,
    fun z hmin hmax => ⟨beSigned_length 4 z, toInt_unbe_beSigned rfl (by decide) hmin hmax⟩⟩

/-! ### A run of channel writes -/

/-- The number of a channel field (R21, R22). -/
def ChField.number : ChField → Byte
  | .fast => 0#8
  | .range => 1#8
  | .override => 2#8
  | .rfb => 3#8
  | .gainP => 4#8
  | .gainN => 5#8
  | .goff => 6#8
  | .gpol => 7#8
  | .valid => 8#8

theorem ChField.ofByte_number (f : ChField) : ChField.ofByte f.number = some f := by
  cases f <;> rfl

/-- A write of a legal value to a channel that is there answers `OK` and puts `Channel.write` in the channel's place
(R106). -/
theorem exec_chWr_of_legal {s : State} {ch : Byte} {x : Channel} {f : ChField} {v : BitVec 16}
    (hch : ch.toNat < s.cfg.nCh) (hx : s.ch[ch.toNat]? = some x) (hlegal : legalValue s.cfg f v = true) :
    exec (.chWr ch f.number v) s = .next ((s.setChan ch (x.write s.cfg f v)).respond .ok []) := by
  have hchan : s.noChan ch = false := decide_eq_false (not_le.mpr hch)
  have hx' : s.chan ch = x := by rw [State.chan, List.getD_eq_getElem?_getD, hx, Option.getD_some]
  simp [exec, execChWr, hchan, ChField.ofByte_number, hlegal, hx']

/-- What a sequence of accepted writes makes of a channel. -/
def Channel.writes (c : Config) (x : Channel) (ws : List (ChField × BitVec 16)) : Channel :=
  ws.foldl (fun y w => y.write c w.1 w.2) x

@[simp] theorem Channel.writes_nil (c : Config) (x : Channel) : x.writes c [] = x := rfl

@[simp] theorem Channel.writes_cons (c : Config) (x : Channel) (w : ChField × BitVec 16)
    (ws : List (ChField × BitVec 16)) : x.writes c (w :: ws) = (x.write c w.1 w.2).writes c ws := rfl

theorem runList_cons_of_next {i : Instr} {is : List Instr} {s t : State} (h : exec i s = .next t) :
    runList (i :: is) s = runList is t := by
  simp only [runList, h]

/-- A run of writes of legal values to one channel answers `OK` to each and leaves the channel with all of them; nothing
else changes. -/
theorem runList_chWrites {ch : Byte} (ws : List (ChField × BitVec 16)) {s : State} {x : Channel}
    (hch : ch.toNat < s.cfg.nCh) (hx : s.ch[ch.toNat]? = some x)
    (hlegal : ∀ w ∈ ws, legalValue s.cfg w.1 w.2 = true) :
    runList (ws.map fun w => .chWr ch w.1.number w.2) s = .next { s with
      ch := s.ch.set ch.toNat (x.writes s.cfg ws)
      responses := s.responses ++ List.replicate ws.length ⟨.ok, []⟩ } := by
  induction ws generalizing s x with
  | nil =>
    obtain ⟨hlt, rfl⟩ := List.getElem?_eq_some_iff.mp hx
    simp [runList]
  | cons w ws ih =>
    obtain ⟨hw, hws⟩ := List.forall_mem_cons.mp hlegal
    obtain ⟨hlt, _⟩ := List.getElem?_eq_some_iff.mp hx
    have hx' : (s.setChan ch (x.write s.cfg w.1 w.2)).ch[ch.toNat]? = some (x.write s.cfg w.1 w.2) := by
      simp [hlt]
    rw [List.map_cons, runList_cons_of_next (exec_chWr_of_legal hch hx hw),
      ih (s := (s.setChan ch (x.write s.cfg w.1 w.2)).respond .ok []) hch hx' hws]
    simp [State.setChan, State.respond, List.replicate_succ]

/-- The writes of `SC.CUSTOM` in the order the source gives (R57). -/
def customWrites (pol goff gp gn rfb : BitVec 16) : List (ChField × BitVec 16) :=
  [(.override, 1#16), (.gpol, pol), (.goff, goff), (.gainP, gp), (.gainN, gn), (.rfb, rfb)]

theorem scCustom_expand (ch : Byte) (pol goff gp gn rfb : BitVec 16) :
    (Pseudo.scCustom ch pol goff gp gn rfb).expand =
      (customWrites pol goff gp gn rfb).map fun w => .chWr ch w.1.number w.2 := rfl

theorem customWrites_legal (c : Config) {pol goff gp gn rfb : BitVec 16} (hpol : pol.toNat ≤ 1) (hgp : gp.toNat ≤ 3)
    (hgn : gn.toNat ≤ 3) : ∀ w ∈ customWrites pol goff gp gn rfb, legalValue c w.1 w.2 = true := by
  simp [customWrites, legalValue, hpol, hgp, hgn]

/-- Each of the writes recomputes the derived numbers (R115), from the input fields alone, so those of the last one are
those of all the inputs. -/
theorem writes_customWrites (c : Config) (x : Channel) (pol goff gp gn rfb : BitVec 16) :
    x.writes c (customWrites pol goff gp gn rfb) =
      Channel.recompute c { x with
        override := 1, gpol := pol.setWidth 1, goff := goff, gainP := gp.setWidth 2, gainN := gn.setWidth 2,
        rfb := rfb } := by
  simp only [customWrites, Channel.writes_cons, Channel.writes_nil, Channel.write, ChField.triggers, if_true,
    Channel.setField, Channel.recompute]
  rfl

/-- Settles O60: the sequence is a run of writes of legal values to one channel. -/
theorem customSequenceSetsTheChannel : Obligations.CustomSequenceSetsTheChannel := by
  intro ch pol goff gp gn rfb s x hch hx hpol hgp hgn
  rw [scCustom_expand, runList_chWrites _ hch hx (customWrites_legal s.cfg hpol hgp hgn), writes_customWrites]
  rfl

/-! ### Reserved opcodes, and commands from the map -/

/-- Settles O4: the bytes of the statement are the opcode bytes of the map. -/
theorem reservedOpcodesAreThoseOutsideTheMap : Obligations.ReservedOpcodesAreThoseOutsideTheMap := by
  intro op rest
  rw [decode_eq_reserved_iff, Opcode.ofByte_eq_none_iff]
  have hmap : op ∈ Opcode.all.map Opcode.byte ↔ ∃ o : Opcode, o.byte = op := by simp [Opcode.mem_all]
  exact not_exists.symm.trans (not_congr hmap.symm)

/-- Settles O5: the commands are the encodings of their instructions, so the decoder reads them back. -/
theorem specWordsDecode : Obligations.SpecWordsDecode := by
  have hread : ∀ i : Instr, i.isCommand = true → i.wf Config.default = true →
      decode (encode Config.default i) = .instr i := decodeReadsEncodedCommand Config.default
  exact ⟨hread (.crcInit 0x07#8) rfl rfl, hread (.xferWr 0x2C#8 [0x12#8, 0x30#8]) rfl rfl,
    hread (.regWr 0x2C#8 0x00123F#24) rfl rfl, hread (.csrWr 0x01#8 0xFF#8) rfl rfl,
    hread (.chWr 0x01#8 0x03#8 1000#16) rfl rfl, hread (.scConv 0x00#8 0x800000#24) rfl rfl⟩

/-! ### What is no command -/

/-- The step answers what the decoder rejects with its status, and only takes it from the host's list. -/
theorem step_of_rejected {s : State} {bytes : List Byte} {rest : List Input} {r : Reject}
    (hin : s.inputs = .command bytes :: rest) (hdec : decode bytes = .rejected r) :
    step s = refusedWith { s with inputs := rest } (rejectStatus r) := by
  simp only [step, hin, hdec, State.takeInput_of_inputs hin]
  rfl

theorem step_idle {s : State} (h : s.inputs = []) : step s = .next s := by
  simp only [step, h]

/-- Settles O8: each reason of the decoder has its status. -/
theorem stepAnswersWhatIsNoCommand : Obligations.StepAnswersWhatIsNoCommand :=
  ⟨fun _ => step_idle, fun _ _ _ hin =>
    ⟨step_of_rejected hin, fun _ => step_of_rejected hin, fun _ => step_of_rejected hin⟩⟩

/-! ### The wire forms -/

/-- Settles O42: the bytes received are the device's answer to the one byte sent. -/
theorem wireByteGoesOut : Obligations.WireByteGoesOut := by
  intro addr s
  refine ⟨s.answer [instrWr s.cfg addr] false, s.answer [instrRd s.cfg addr] false, State.answer_length _ _ _,
    State.answer_length _ _ _, ?_, ?_⟩
  · simp only [exec, execWireWr, instrByte_write, State.afterSeg, List.length_singleton, Bool.not_false]
  · simp only [exec, execWireRd, instrByte_read, State.afterSeg, List.length_singleton, Bool.not_false]

end Sys2Proof.Machine
end

section
/-! SUPPORT. The statements of the family 40_crc (spec/40_crc.md): the table is linear and, for an odd polynomial, one
to one; the fold is the bit-serial register; and the two instructions of the CRC engine. -/

namespace Sys2Proof.Machine

open Sys2Proof.Spec

/-! ### The shift step -/

/-- While the bit shifted out is 0, the polynomial stays out. -/
theorem crcStep_of_top_clear (p : Byte) {r : Byte} (h : r.getLsbD 7 = false) : crcStep p r = r <<< 1 := by
  rw [crcStep, h]
  exact BitVec.xor_zero

theorem crcStep_of_top_set (p : Byte) {r : Byte} (h : r.getLsbD 7 = true) : crcStep p r = (r <<< 1) ^^^ p := by
  rw [crcStep, h]
  rfl

@[simp] theorem crcStep_zero_register (p : Byte) : crcStep p 0#8 = 0#8 := crcStep_of_top_clear p rfl

@[simp] theorem crcStep_zero_polynomial (r : Byte) : crcStep 0#8 r = r <<< 1 := by
  simp [crcStep]

/-- The lowest bit after a step of an odd polynomial is the bit shifted out. -/
theorem getLsbD_zero_crcStep {p : Byte} (hp : p.getLsbD 0 = true) (r : Byte) :
    (crcStep p r).getLsbD 0 = r.getLsbD 7 := by
  unfold crcStep
  rw [BitVec.getLsbD_xor]
  cases r.getLsbD 7 <;> simp [hp]

/-- A byte whose top bit is 0 comes back from its left shift. -/
theorem eq_zero_of_shiftLeft_one {r : Byte} (htop : r.getLsbD 7 = false) (hshift : r <<< 1 = 0#8) : r = 0#8 := by
  have hsmall : 2 * r.toNat < 2 ^ 8 :=
    BitVec.msb_eq_false_iff_two_mul_lt.mp ((BitVec.msb_eq_getLsbD_last r).trans htop)
  bv_omega

/-- Only the zero register steps to zero under an odd polynomial: the lowest bit of 0 says that no bit was lost. -/
theorem crcStep_eq_zero {p r : Byte} (hp : p.getLsbD 0 = true) (h : crcStep p r = 0#8) : r = 0#8 := by
  have htop : r.getLsbD 7 = false := by
    rw [← getLsbD_zero_crcStep hp, h]
    rfl
  exact eq_zero_of_shiftLeft_one htop (crcStep_of_top_clear p htop ▸ h)

/-- A linear step with no register but 0 in its kernel is one to one. -/
theorem crcStep_injective {p : Byte} (hp : p.getLsbD 0 = true) : Function.Injective (crcStep p) := by
  intro a b hab
  have hkernel : crcStep p (a ^^^ b) = 0#8 := by rw [crcStep_xor, hab, BitVec.xor_self]
  exact BitVec.xor_eq_zero_iff.mp (crcStep_eq_zero hp hkernel)

/-! ### The entries of the table -/

/-- Eight linear steps are linear (R63 item 1). -/
theorem tblEntry_xor (p a b : Byte) : tblEntry p (a ^^^ b) = tblEntry p a ^^^ tblEntry p b :=
  Function.Semiconj₂.iterate (crcStep_xor p) 8 a b

@[simp] theorem tblEntry_zero (p : Byte) : tblEntry p 0#8 = 0#8 :=
  Function.iterate_fixed (crcStep_zero_register p) 8

/-- The one bit of the register 1 moves up, until the eighth step shifts it out. -/
theorem iterate_crcStep_one (p : Byte) {n : Nat} (hn : n ≤ 7) : (crcStep p)^[n] 1#8 = 1#8 <<< n := by
  induction n with
  | zero => rfl
  | succ n ih =>
    have htop : (1#8 <<< n).getLsbD 7 = false := by
      have hbelow : 7 - n ≠ 0 := by omega
      simp [hbelow]
    rw [Function.iterate_succ_apply', ih (by omega), crcStep_of_top_clear p htop, ← BitVec.shiftLeft_add]

/-- The eighth step shifts the one bit of the register 1 out and the polynomial in (R63 item 1). -/
theorem tblEntry_one (p : Byte) : tblEntry p 1#8 = p := by
  have hlast : crcStep p (1#8 <<< 7) = p := by
    rw [crcStep_of_top_set p rfl]
    exact BitVec.zero_xor
  rw [tblEntry, Function.iterate_succ_apply', iterate_crcStep_one p le_rfl, hlast]

/-- Without a polynomial the index is shifted out of the register (R63 item 1). -/
theorem tblEntry_zero_polynomial (b : Byte) : tblEntry 0#8 b = 0#8 := by
  have hshifts (n : Nat) : (crcStep 0#8)^[n] b = b <<< n := by
    induction n with
    | zero => simp
    | succ n ih => rw [Function.iterate_succ_apply', ih, crcStep_zero_polynomial, ← BitVec.shiftLeft_add]
  rw [tblEntry, hshifts, BitVec.shiftLeft_eq_zero le_rfl]

theorem tblEntry_injective {p : Byte} (hp : p.getLsbD 0 = true) : Function.Injective (tblEntry p) :=
  (crcStep_injective hp).iterate 8

/-- Settles O24: each entry is eight shift steps of its index. -/
theorem tableIsLinear : Obligations.TableIsLinear := by
  intro p a b
  simp only [tableAt_tblgen]
  exact ⟨tblEntry_xor p a b, tblEntry_zero p, tblEntry_one p, tblEntry_zero_polynomial a⟩

/-! ### The fold -/

/-- A fold can be cut anywhere and resumed (R63 item 3). -/
theorem crc8_append (T : Vector Byte 256) (u v : List Byte) (seed : Byte) :
    crc8 T (u ++ v) seed = crc8 T v (crc8 T u seed) := List.foldl_append

/-- Settles O25: the fold goes through the bytes in order. -/
theorem foldCanBeCut : Obligations.FoldCanBeCut :=
  fun T u v seed => ⟨crc8_nil T seed, crc8_append T u v seed⟩

/-- Settles O27: the last byte meets the register equal to it, so the entry of index 0 is what remains. -/
theorem appendedCrcFoldsToZero : Obligations.AppendedCrcFoldsToZero := by
  intro p seed s
  refine ⟨?_, fun _ => rfl⟩
  rw [crc8_append, crc8_cons, crc8_nil, BitVec.xor_self, tableAt_tblgen, tblEntry_zero]

/-- With an odd polynomial the CRC of a message tells its seeds apart. -/
theorem crc8_tblgen_injective {p : Byte} (hp : p.getLsbD 0 = true) (s : List Byte) :
    Function.Injective (crc8 (tblgen p) s) := by
  induction s with
  | nil => exact Function.injective_id
  | cons b s ih =>
    intro c d hcd
    rw [crc8_cons, crc8_cons, tableAt_tblgen, tableAt_tblgen] at hcd
    exact (BitVec.xor_left_inj b).mp (tblEntry_injective hp (ih hcd))

/-- Settles O28: the changed byte changes the register, and the rest of the message keeps the registers apart. -/
theorem oddPolynomialSeesEveryByteChange : Obligations.OddPolynomialSeesEveryByteChange := by
  intro p seed x y u v hp hxy hcrc
  rw [crc8_append, crc8_append, crc8_cons, crc8_cons, tableAt_tblgen, tableAt_tblgen] at hcrc
  have hindex := tblEntry_injective hp (crc8_tblgen_injective hp v hcrc)
  exact hxy ((BitVec.xor_right_inj _).mp hindex)

/-! ### The bit-serial register -/

/-- A message bit is the top bit of what is left of its byte: the bit-serial step on the register is the shift step on
the register with the byte mixed in. -/
theorem serialStep_xor (p r b : Byte) : serialStep p (r ^^^ b) (b.getLsbD 7) = crcStep p r ^^^ (b <<< 1) := by
  have hcancel : ((r.getLsbD 7 ^^ b.getLsbD 7) != b.getLsbD 7) = r.getLsbD 7 := by simp
  rw [serialStep, crcStep, BitVec.shiftLeft_xor_distrib, BitVec.getLsbD_xor, hcancel]
  ac_rfl

/-- After the first `n` bits of a byte the bit-serial register is `n` shift steps of the register with the byte mixed
in, but for the bits of the byte still to come. -/
theorem serial_first_bits (p c b : Byte) {n : Nat} (hn : n ≤ 8) :
    (List.range n).foldl (fun r j => serialStep p r (b.getLsbD (7 - j))) c =
      (crcStep p)^[n] (c ^^^ b) ^^^ (b <<< n) := by
  induction n with
  | zero => simp
  | succ n ih =>
    have hbit : b.getLsbD (7 - n) = (b <<< n).getLsbD 7 := by
      have hkept : ¬ 7 < n := by omega
      rw [BitVec.getLsbD_shiftLeft, decide_eq_false hkept]
      rfl
    rw [List.range_succ, List.foldl_append, ih (by omega), List.foldl_cons, List.foldl_nil, hbit, serialStep_xor,
      Function.iterate_succ_apply', BitVec.shiftLeft_add]

/-- Feeding a whole byte is one look-up in the table. -/
theorem serial_byte (p c b : Byte) :
    ((List.range 8).map fun j => b.getLsbD (7 - j)).foldl (serialStep p) c = tblEntry p (c ^^^ b) := by
  rw [List.foldl_map, serial_first_bits p c b le_rfl, BitVec.shiftLeft_eq_zero le_rfl, BitVec.xor_zero, tblEntry]

theorem bitsOf_cons (b : Byte) (s : List Byte) :
    bitsOf (b :: s) = ((List.range 8).map fun j => b.getLsbD (7 - j)) ++ bitsOf s := List.flatMap_cons

/-- Settles O26, by induction on the message: both registers take it byte by byte. -/
theorem foldEqualsTheBitSerialRegister : Obligations.FoldEqualsTheBitSerialRegister := by
  intro p seed s
  induction s generalizing seed with
  | nil => rfl
  | cons b s ih => rw [crc8_cons, tableAt_tblgen, bitsOf_cons, List.foldl_append, serial_byte, ih]

/-! ### The instructions -/

/-- Settles O22: the table is the generated one. -/
theorem crcInitBuildsTheTable : Obligations.CrcInitBuildsTheTable :=
  fun p _ => ⟨rfl, tblgen p, rfl, tableAt_tblgen p⟩

/-- The decoder takes a buffer to be folded exactly where its field `n` is its length (R52, R65). -/
theorem decode_crcCalc (seed n : Byte) (data : List Byte) :
    decode (0x02#8 :: seed :: n :: data) =
      if data.length = n.toNat then .instr (.crcCalc seed data) else .rejected (.wrongLength 0x02#8) := by
  have hop : Opcode.ofByte 0x02#8 = some .crcCalc := rfl
  by_cases hlen : data.length = n.toNat <;> simp only [decode, hop, decodeOperands, hlen, if_true, if_false]

theorem execCrcCalc_of_table {s : State} {t : CrcTable} (h : s.crc = some t) (seed : Byte) (data : List Byte) :
    execCrcCalc seed data s = answeredWith s [crc8 t.table data seed] := by
  rw [execCrcCalc, h]
  rfl

theorem execCrcCalc_without_table {s : State} (h : s.crc = none) (seed : Byte) (data : List Byte) :
    execCrcCalc seed data s = refusedWith s .notReady := by
  rw [execCrcCalc, h]
  rfl

/-- Settles O23: the fold written out in the statement is `crc8`. -/
theorem crcCalcFoldsTheBuffer : Obligations.CrcCalcFoldsTheBuffer :=
  fun seed n data _ => ⟨decode_crcCalc seed n data, fun _ htable => execCrcCalc_of_table htable seed data,
    fun hnone => execCrcCalc_without_table hnone seed data⟩

end Sys2Proof.Machine
end

section
/-! SUPPORT. The statements of the family 41_framer (spec/41_framer.md) on the chunk plan: the fuelled loop and the
unbounded chunk sequence of R76 agree (R77), stream addresses wrap (R89), and one register is one chunk (R87). -/

namespace Sys2Proof.Machine

open Sys2Proof.Spec

/-! ### The chunk sequence of R76 -/

theorem Config.addrSpace_pos_of_wf {c : Config} (h : c.wf = true) : 0 < c.addrSpace := by
  simp only [Config.wf, Bool.and_eq_true, decide_eq_true_eq] at h
  tauto

/-- The sum modulo a non-empty address space is no negative number, so the byte can be taken of the integer (R76). -/
theorem effAddr_eq_ofInt {c : Config} (hspace : 0 < c.addrSpace) (L addr : Byte) (inc : Int) :
    effAddr c L addr inc =
      BitVec.ofInt 8 ((addr.toNat + if L = 0#8 then inc else Int.tmod inc L.toNat) % c.addrSpace) := by
  rw [effAddr]
  generalize (addr.toNat + if L = 0#8 then inc else Int.tmod inc L.toNat : Int) = sum
  obtain ⟨m, hm⟩ := Int.eq_ofNat_of_zero_le (Int.emod_nonneg sum (by omega : (c.addrSpace : Int) ≠ 0))
  change BitVec.ofNat 8 (sum % c.addrSpace).toNat = BitVec.ofInt 8 (sum % c.addrSpace)
  rw [hm, Int.toNat_natCast, BitVec.ofInt_natCast]

/-- Chunk `j` of the unbounded sequence of R76. -/
def visitChunk (c : Config) (asc : Bool) (L addr : Byte) (j : Nat) : Chunk :=
  ⟨j, visitAddr c asc L addr j, reglen c (visitAddr c asc L addr j), (visit c asc L addr j).1⟩

/-- The validation of R77 accepts chunk `j` of the sequence as one that begins below `n`. -/
def VisitAccepted (c : Config) (asc : Bool) (L addr : Byte) (n j : Nat) : Prop :=
  (visit c asc L addr j).1 < n ∧ reglen c (visitAddr c asc L addr j) ≠ 0

section sequence

variable {c : Config} {asc : Bool} {L addr : Byte} {n : Nat}

/-- The loop is at the chunk that the sequence has at its increment. -/
theorem effAddr_visit (hspace : 0 < c.addrSpace) (k : Nat) :
    effAddr c L addr (visit c asc L addr k).2 = visitAddr c asc L addr k :=
  effAddr_eq_ofInt hspace L addr _

theorem visit_succ (k : Nat) :
    visit c asc L addr (k + 1) =
      ((visit c asc L addr k).1 + reglen c (visitAddr c asc L addr k),
        (visit c asc L addr k).2 + addrSign asc * reglen c (visitAddr c asc L addr k)) := by
  cases asc
  · simp only [visit, visitAddr, addrSign, Bool.false_eq_true, if_false, Int.neg_one_mul, Int.sub_eq_add_neg]
  · simp only [visit, visitAddr, addrSign, if_true, Int.one_mul]

/-- Every chunk of non-zero width moves the offset, so `m` of them reach at least `m`. -/
theorem le_visit_of_widths {m : Nat} (h : ∀ j < m, reglen c (visitAddr c asc L addr j) ≠ 0) :
    m ≤ (visit c asc L addr m).1 := by
  induction m with
  | zero => exact Nat.zero_le _
  | succ m ih =>
    have hbelow := ih fun j hj => h j (by omega)
    have hwidth := h m (by omega)
    rw [visit_succ]
    dsimp only
    omega

/-- One turn of the loop at chunk `k` of the sequence. -/
theorem planFrom_visit_succ (hspace : 0 < c.addrSpace) (fuel k : Nat) :
    planFrom c asc L addr n (fuel + 1) k (visit c asc L addr k).1 (visit c asc L addr k).2 =
      if (visit c asc L addr k).1 < n then
        if reglen c (visitAddr c asc L addr k) = 0 ∨ n < (visit c asc L addr (k + 1)).1 then none
        else (planFrom c asc L addr n fuel (k + 1) (visit c asc L addr (k + 1)).1 (visit c asc L addr (k + 1)).2).map
          (visitChunk c asc L addr k :: ·)
      else some [] := by
  rw [planFrom_succ, effAddr_visit hspace, visit_succ]
  rfl

/-- What the loop plans from chunk `k` on is a part of the sequence that ends exactly at `n`. -/
theorem visits_of_planFrom (hspace : 0 < c.addrSpace) {fuel k : Nat} {plan : List Chunk}
    (hi : (visit c asc L addr k).1 ≤ n)
    (h : planFrom c asc L addr n fuel k (visit c asc L addr k).1 (visit c asc L addr k).2 = some plan) :
    ∃ m, (visit c asc L addr (k + m)).1 = n ∧ (∀ j, k ≤ j → j < k + m → VisitAccepted c asc L addr n j) ∧
      plan = (List.range' k m).map (visitChunk c asc L addr) := by
  induction fuel generalizing k plan with
  | zero =>
    obtain ⟨hend, rfl⟩ | ⟨_, _, hfuel, _⟩ := planFrom_some h
    · exact ⟨0, Nat.le_antisymm hi hend, fun j _ _ => by omega, rfl⟩
    · cases hfuel
  | succ fuel ih =>
    rw [planFrom_visit_succ hspace] at h
    split_ifs at h with hbelow hbad
    · obtain ⟨rest, hrest, rfl⟩ := Option.map_eq_some_iff.mp h
      obtain ⟨hwidth, hfits⟩ := not_or.mp hbad
      obtain ⟨m, hend, haccepted, rfl⟩ := ih (by omega) hrest
      refine ⟨m + 1, ?_, fun j hkj hj => ?_, ?_⟩
      · rw [← hend, Nat.add_right_comm, Nat.add_assoc]
      · obtain rfl | hlater := Nat.eq_or_lt_of_le hkj
        · exact ⟨hbelow, hwidth⟩
        · exact haccepted j hlater (by omega)
      · rw [List.range'_succ, List.map_cons]
    · obtain rfl := Option.some.inj h
      exact ⟨0, Nat.le_antisymm hi (not_lt.mp hbelow), fun j _ _ => by omega, rfl⟩

/-- With fuel enough the loop plans the accepted part of the sequence that ends exactly at `n`. -/
theorem planFrom_of_visits (hspace : 0 < c.addrSpace) {fuel k m : Nat} (hend : (visit c asc L addr (k + m)).1 = n)
    (haccepted : ∀ j, k ≤ j → j < k + m → VisitAccepted c asc L addr n j) (hfuel : m ≤ fuel) :
    planFrom c asc L addr n fuel k (visit c asc L addr k).1 (visit c asc L addr k).2 =
      some ((List.range' k m).map (visitChunk c asc L addr)) := by
  induction m generalizing k fuel with
  | zero =>
    rw [Nat.add_zero] at hend
    rw [hend, planFrom_done]
    rfl
  | succ m ih =>
    obtain ⟨fuel, rfl⟩ := Nat.exists_eq_add_of_lt hfuel
    obtain ⟨hbelow, hwidth⟩ := haccepted k le_rfl (by omega)
    have hend' : (visit c asc L addr (k + 1 + m)).1 = n := by rw [← hend, Nat.add_right_comm, Nat.add_assoc]
    have hfits : (visit c asc L addr (k + 1)).1 ≤ n := by
      cases m with
      | zero => exact hend'.le
      | succ m => exact (haccepted (k + 1) (by omega) (by omega)).1.le
    have hrest := ih (fuel := m + fuel) hend' (fun j hkj hj => haccepted j (by omega) (by omega)) (by omega)
    rw [planFrom_visit_succ hspace, if_pos hbelow, if_neg (not_or.mpr ⟨hwidth, hfits.not_gt⟩), hrest,
      List.range'_succ]
    rfl

/-- The loop with its validation plans exactly the accepted part of the sequence (R76, R77). -/
theorem chunkPlan_eq_some_iff (hspace : 0 < c.addrSpace) {plan : List Chunk} :
    chunkPlan c asc L addr n = some plan ↔
      ∃ m, (visit c asc L addr m).1 = n ∧ (∀ j < m, VisitAccepted c asc L addr n j) ∧
        plan = (List.range m).map (visitChunk c asc L addr) := by
  constructor
  · intro h
    obtain ⟨m, hend, haccepted, hplan⟩ := visits_of_planFrom (k := 0) hspace (Nat.zero_le n) h
    rw [Nat.zero_add] at hend haccepted
    exact ⟨m, hend, fun j hj => haccepted j (Nat.zero_le j) hj, by rw [hplan, List.range_eq_range']⟩
  · rintro ⟨m, hend, haccepted, rfl⟩
    have hfuel : m ≤ n := hend ▸ le_visit_of_widths fun j hj => (haccepted j hj).2
    rw [List.range_eq_range']
    exact planFrom_of_visits (k := 0) hspace (by rw [Nat.zero_add, hend])
      (fun j _ hj => haccepted j (by omega)) hfuel

end sequence

/-- Settles O30: an address space of a legal record is not empty. -/
theorem planIsTheVisitSequence : Obligations.PlanIsTheVisitSequence :=
  fun _ _ _ _ _ _ hwf => chunkPlan_eq_some_iff (Config.addrSpace_pos_of_wf hwf)

/-! ### Chunks of one byte -/

/-- Where all chunks before it are one byte wide, the increment of chunk `k` is `k` steps. -/
theorem visit_inc_of_byte_widths {c : Config} {asc : Bool} {L addr : Byte} {k : Nat}
    (h : ∀ j < k, reglen c (visitAddr c asc L addr j) = 1) :
    (visit c asc L addr k).2 = addrSign asc * k := by
  induction k with
  | zero => cases asc <;> rfl
  | succ k ih =>
    rw [visit_succ, h k (by omega), ih fun j hj => h j (by omega)]
    push_cast
    ring

/-- The remainder toward zero keeps the direction (R76). -/
theorem tmod_addrSign_mul (asc : Bool) (k L : Nat) :
    Int.tmod (addrSign asc * k) L = addrSign asc * ((k % L : Nat) : Int) := by
  cases asc
  · simp only [addrSign, Bool.false_eq_true, if_false, Int.neg_one_mul, Int.neg_tmod, Int.ofNat_tmod]
  · simp only [addrSign, if_true, Int.one_mul, Int.ofNat_tmod]

/-- Settles O31: the chunks before chunk `k` are in the plan, so each is one step. -/
theorem streamAddressesWrap : Obligations.StreamAddressesWrap := by
  intro c asc L addr n plan hwf hplan hwidths k hk
  obtain ⟨m, _, _, rfl⟩ := (chunkPlan_eq_some_iff (Config.addrSpace_pos_of_wf hwf)).mp hplan
  rw [List.length_map, List.length_range] at hk
  have hbytes : ∀ j < k, reglen c (visitAddr c asc L addr j) = 1 := fun j hj =>
    hwidths (visitChunk c asc L addr j) (List.mem_map_of_mem (List.mem_range.mpr (by omega)))
  simp only [List.getElem_map, List.getElem_range, visitChunk, visitAddr, visit_inc_of_byte_widths hbytes,
    tmod_addrSign_mul, ← mul_ite]
  rfl

/-! ### The first chunk -/

/-- The first chunk is at the operand itself, whatever the stream mode, where that is inside the address space. -/
theorem effAddr_zero {c : Config} {addr : Byte} (h : addr.toNat < c.addrSpace) (L : Byte) :
    effAddr c L addr 0 = addr := by
  have hmod : ((addr.toNat : Int) % c.addrSpace) = addr.toNat := Int.emod_eq_of_lt (by omega) (by omega)
  rw [effAddr_eq_ofInt (by omega), Int.zero_tmod, ite_self, Int.add_zero, hmod, BitVec.ofInt_natCast,
    BitVec.ofNat_toNat, BitVec.setWidth_eq]

/-- A buffer of the first register's width is full behind the first chunk. -/
theorem planFrom_one_register {c : Config} {addr : Byte} (hwidth : reglen c addr ≠ 0)
    (haddr : addr.toNat < c.addrSpace) (asc : Bool) (L : Byte) {fuel : Nat} (hfuel : fuel ≠ 0) :
    planFrom c asc L addr (reglen c addr) fuel 0 0 0 = some [⟨0, addr, reglen c addr, 0⟩] := by
  obtain ⟨fuel, rfl⟩ := Nat.exists_eq_succ_of_ne_zero hfuel
  rw [planFrom_succ, effAddr_zero haddr, if_pos (Nat.pos_of_ne_zero hwidth), if_neg (by omega),
    Nat.zero_add (reglen c addr), planFrom_done]
  rfl

/-- Settles O41: the fuel is the register's width, which is not 0. -/
theorem oneRegisterIsOneChunk : Obligations.OneRegisterIsOneChunk :=
  fun _ asc L _ hwidth haddr => planFrom_one_register hwidth haddr asc L hwidth

theorem planFrom_index_le {c : Config} {asc : Bool} {L addr : Byte} {n fuel k i : Nat} {inc : Int}
    {plan : List Chunk} (h : planFrom c asc L addr n fuel k i inc = some plan) : ∀ ck ∈ plan, k ≤ ck.index := by
  induction fuel generalizing k i inc plan with
  | zero =>
    obtain ⟨_, rfl⟩ | ⟨_, _, hfuel, _⟩ := planFrom_some h
    · simp
    · cases hfuel
  | succ fuel ih =>
    obtain ⟨_, rfl⟩ | ⟨_, rest, hfuel, _, _, _, hrest, rfl⟩ := planFrom_some h
    · simp
    · cases hfuel
      have hlater := ih hrest
      simp only [List.mem_cons, forall_eq_or_imp, le_refl, true_and]
      exact fun ck hck => (Nat.le_succ k).trans (hlater ck hck)

/-- The plan of a transfer that has bytes: chunk 0, and then chunks that are not chunk 0. -/
theorem chunkPlan_eq_cons {c : Config} {asc : Bool} {L addr : Byte} {n : Nat} {plan : List Chunk} (hn : 0 < n)
    (h : chunkPlan c asc L addr n = some plan) :
    ∃ first rest, plan = first :: rest ∧ first.index = 0 ∧ ∀ ck ∈ rest, ck.index ≠ 0 := by
  obtain ⟨hend, _⟩ | ⟨_, rest, _, _, _, _, hrest, rfl⟩ := planFrom_some h
  · omega
  · exact ⟨_, rest, rfl, rfl, fun ck hck => Nat.one_le_iff_ne_zero.mp (planFrom_index_le hrest ck hck)⟩

end Sys2Proof.Machine
end

section
/-! SUPPORT. The statements of the family 41_framer (spec/41_framer.md) on the four transfers: their checks, the plain
form (R73), the CRC-secured form (R78 to R84), and the register accesses (R86 to R88). -/

namespace Sys2Proof.Machine

open Sys2Proof.Spec

/-! ### What a transfer can change -/

/-- Settles O21: of the effects an instruction can have, a transfer's is on the bus side only. -/
theorem transfersLeaveTheBlockState : Obligations.TransfersLeaveTheBlockState := by
  intro i s t hi hexec
  obtain ⟨m, rs, heffect, rfl⟩ := exec_cases hexec
  cases heffect with
  | unchanged => exact ⟨rfl, rfl, rfl, rfl, rfl, rfl, rfl, rfl, rfl⟩
  | transfer _ hbus _ =>
    obtain ⟨hcrc, hcrcEn, haddrAsc, hsingle, hkeep, hlen, hch, hcfg, hinputs⟩ := hbus.sameBlock
    exact ⟨hcrc, hcrcEn, haddrAsc, hsingle, hkeep, hlen, hch, hcfg, hinputs⟩
  | table | config | channel => simp [usesBus] at hi

/-! ### The instructions in terms of the transfers -/

theorem exec_xferWr (addr : Byte) (data : List Byte) (s : State) :
    exec (.xferWr addr data) s = .next ((s.memWrite addr data).2.finish (s.memWrite addr data).1) := rfl

theorem exec_xferRd (addr n : Byte) (s : State) :
    exec (.xferRd addr n) s = .next ((s.memRead addr n.toNat).2.finish (s.memRead addr n.toNat).1) := rfl

theorem regRefused_iff {c : Config} {asc : Bool} {addr : Byte} :
    regRefused c asc addr = true ↔ reglen c addr = 0 ∨ (c.secBase.toNat ≤ addr.toNat ∧ asc = true) := by
  simp [regRefused]

theorem exec_regWr_of_accepted {s : State} {addr : Byte} (h : ¬ regRefused s.cfg s.addrAsc addr = true)
    (value : BitVec 24) :
    exec (.regWr addr value) s =
      exec (.xferWr addr (beBytes (reglen s.cfg addr) (regWriteValue s.cfg (reglen s.cfg addr) value))) s :=
  if_neg h

theorem exec_regRd_of_accepted {s : State} {addr : Byte} (h : ¬ regRefused s.cfg s.addrAsc addr = true) :
    exec (.regRd addr) s = .next ((s.memRead addr (reglen s.cfg addr)).2.finish
      (regReadEnding s.cfg (reglen s.cfg addr) (s.memRead addr (reglen s.cfg addr)).1)) :=
  if_neg h

/-! ### The checks -/

/-- Settles O40: both commands make the checks first, and raise. -/
theorem registerChecksRefuse : Obligations.RegisterChecksRefuse :=
  fun _ _ _ h => ⟨if_pos (regRefused_iff.mpr h), if_pos (regRefused_iff.mpr h)⟩

theorem badLength_of_not_lengthOk {c : Config} {n : Nat} (h : ¬ LengthOk c n) : badLength c n = true := by
  simp only [LengthOk, not_and_or, not_le] at h
  simp only [badLength, Bool.or_eq_true, decide_eq_true_eq]
  omega

section checks

variable {s : State} {addr : Byte}

theorem State.secure_of_no_plan {n : Nat} (h : chunkPlan s.cfg s.addrAsc s.streamLen addr n = none) :
    s.secure addr n = .error .invalidArgument := by
  rw [State.secure, h]

theorem State.secure_of_no_table {n : Nat} (hplan : chunkPlan s.cfg s.addrAsc s.streamLen addr n ≠ none)
    (hcrc : s.crc = none) : s.secure addr n = .error .notReady := by
  obtain ⟨plan, hplan⟩ := Option.ne_none_iff_exists'.mp hplan
  rw [State.secure, hplan, hcrc]

theorem State.secure_of_plan_and_table {n : Nat} {plan : List Chunk} {tb : CrcTable}
    (hplan : chunkPlan s.cfg s.addrAsc s.streamLen addr n = some plan) (hcrc : s.crc = some tb) :
    s.secure addr n = .ok (plan, tb.table) := by
  rw [State.secure, hplan, hcrc]

theorem State.memWrite_of_badLength {data : List Byte} (h : ¬ LengthOk s.cfg data.length) :
    s.memWrite addr data = (.raise .invalidArgument, s) := by
  rw [State.memWrite, if_pos (badLength_of_not_lengthOk h)]

theorem State.memRead_of_badLength {n : Nat} (h : ¬ LengthOk s.cfg n) :
    s.memRead addr n = (.raise .invalidArgument, s) := by
  rw [State.memRead, if_pos (badLength_of_not_lengthOk h)]

theorem State.memWrite_of_secure_error {data : List Byte} {st : Status} (hlen : LengthOk s.cfg data.length)
    (hcrc : s.crcEn = true) (h : s.secure addr data.length = .error st) :
    s.memWrite addr data = (.raise st, s) := by
  rw [State.memWrite, badLength_of_lengthOk hlen, hcrc, h]
  rfl

theorem State.memRead_of_secure_error {n : Nat} {st : Status} (hlen : LengthOk s.cfg n) (hcrc : s.crcEn = true)
    (h : s.secure addr n = .error st) : s.memRead addr n = (.raise st, s) := by
  rw [State.memRead, badLength_of_lengthOk hlen, hcrc, h]
  rfl

theorem exec_xferWr_of_refused {data : List Byte} {st : Status} (h : s.memWrite addr data = (.raise st, s)) :
    exec (.xferWr addr data) s = refusedWith s st := by
  rw [exec_xferWr, h]
  rfl

theorem exec_xferRd_of_refused {n : Byte} {st : Status} (h : s.memRead addr n.toNat = (.raise st, s)) :
    exec (.xferRd addr n) s = refusedWith s st := by
  rw [exec_xferRd, h]
  rfl

end checks

/-- Settles O34: the length, then the plan, then the table, for either direction. -/
theorem transferChecksComeBeforeTheBus : Obligations.TransferChecksComeBeforeTheBus := by
  intro addr n data s
  refine ⟨fun hlen => ?_, fun hlen hcrc hplan => ?_, fun hlen hcrc hplan htable => ?_, fun hlen => ?_,
    fun hlen hcrc hplan => ?_, fun hlen hcrc hplan htable => ?_⟩
  · exact exec_xferWr_of_refused (State.memWrite_of_badLength hlen)
  · exact exec_xferWr_of_refused (State.memWrite_of_secure_error hlen hcrc (State.secure_of_no_plan hplan))
  · exact exec_xferWr_of_refused (State.memWrite_of_secure_error hlen hcrc (State.secure_of_no_table hplan htable))
  · exact exec_xferRd_of_refused (State.memRead_of_badLength hlen)
  · exact exec_xferRd_of_refused (State.memRead_of_secure_error hlen hcrc (State.secure_of_no_plan hplan))
  · exact exec_xferRd_of_refused (State.memRead_of_secure_error hlen hcrc (State.secure_of_no_table hplan htable))

/-! ### The plain transfers -/

/-- Two segments, the first held and the second with release (R73). -/
theorem State.afterSeg_held_then_released (s : State) (instr : Byte) (tx : List Byte) :
    (s.afterSeg [instr] false).afterSeg tx true = { s with
      csActive := false
      devRx := s.devRx.drop (1 + tx.length)
      bus := s.bus ++ [.seg [instr] (s.answer [instr] false) false,
        .seg tx ((s.afterSeg [instr] false).answer tx true) true] } := by
  simp [State.afterSeg, Nat.add_comm]

/-- Settles O32: the received bytes are the device's answers to the two segments. -/
theorem plainWriteSendsTwoSegments : Obligations.PlainWriteSendsTwoSegments := by
  intro addr data s hcrc hlen
  refine ⟨s.answer [instrWr s.cfg addr] false, (s.afterSeg [instrWr s.cfg addr] false).answer data true,
    State.answer_length _ _ _, State.answer_length _ _ _, ?_⟩
  rw [exec_xferWr, State.memWrite_plain hcrc hlen, State.plainWrite, instrByte_write,
    State.afterSeg_held_then_released]
  rfl

/-- What `plain_read` does (R73), with the answer of its second segment. -/
theorem State.memRead_plain_eq {s : State} {addr : Byte} {n : Nat} (hcrc : s.crcEn = false) (hlen : LengthOk s.cfg n) :
    ∃ rx1 rx2 : List Byte, rx1.length = 1 ∧ rx2.length = n ∧
      s.memRead addr n = (.ok rx2, { s with
        csActive := false
        devRx := s.devRx.drop (1 + n)
        bus := s.bus ++ [.seg [instrRd s.cfg addr] rx1 false, .seg (List.replicate n s.cfg.txFill) rx2 true] }) ∧
      (1 + n ≤ s.devRx.length → rx2 = (s.devRx.drop 1).take n) := by
  refine ⟨s.answer [instrRd s.cfg addr] false,
    (s.afterSeg [instrRd s.cfg addr] false).answer (List.replicate n s.cfg.txFill) true, State.answer_length _ _ _,
    ?_, ?_, fun hscript => ?_⟩
  · rw [State.answer_length, List.length_replicate]
  · rw [State.memRead_plain hcrc hlen, State.plainRead, instrByte_read, State.afterSeg_held_then_released,
      List.length_replicate]
  · rw [State.answer_of_script, State.afterSeg_devRx, List.length_replicate, List.length_singleton]
    rw [State.afterSeg_devRx, List.length_replicate, List.length_singleton, List.length_drop]
    omega

/-- Settles O33: the response holds the device's answer to the second segment. -/
theorem plainReadReturnsTheSecondSegment : Obligations.PlainReadReturnsTheSecondSegment := by
  intro addr n s hcrc hlen
  obtain ⟨rx1, rx2, hrx1, hrx2, hread, hscript⟩ := State.memRead_plain_eq (addr := addr) hcrc hlen
  refine ⟨rx1, rx2, hrx1, hrx2, ?_, hscript⟩
  rw [exec_xferRd, hread]
  rfl

/-! ### The bytes of a register -/

/-- The most significant byte of a word's low `n + 1` bytes comes first (R34). -/
theorem beBytes_succ_toNat {w : Nat} (n : Nat) (v : BitVec w) :
    beBytes (n + 1) v.toNat = v.extractLsb' (8 * n) 8 :: beBytes n v.toNat := by
  rw [beBytes]
  congr 1
  apply BitVec.eq_of_toNat_eq
  rw [BitVec.extractLsb'_toNat, BitVec.toNat_ofNat, Nat.shiftRight_eq_div_pow, two_pow_bits rfl]

/-- What `REG.WR` sends in a register of 2 bytes: the masked low half of the value (R87). -/
theorem regWriteValue_two (c : Config) (value : BitVec 24) :
    regWriteValue c 2 value = (value.setWidth 16 &&& c.dac16Mask).toNat := by
  have hmask : c.dac16Mask.toNat % 2 ^ 16 = c.dac16Mask.toNat := Nat.mod_eq_of_lt c.dac16Mask.isLt
  rw [regWriteValue, dacMask, if_pos rfl, BitVec.toNat_and, BitVec.toNat_setWidth, Nat.and_mod_two_pow, hmask]

/-- The bytes that `REG.WR` sends in a register of each width, written out (R34, R87). -/
theorem beBytes_regWriteValue {c : Config} {addr : Byte} (hwidth : reglen c addr ≠ 0) (value : BitVec 24) :
    beBytes (reglen c addr) (regWriteValue c (reglen c addr) value) =
      if reglen c addr = 1 then [value.extractLsb' 0 8]
      else if reglen c addr = 2 then [(value.setWidth 16 &&& c.dac16Mask).extractLsb' 8 8,
        (value.setWidth 16 &&& c.dac16Mask).extractLsb' 0 8]
      else [value.extractLsb' 16 8, value.extractLsb' 8 8, value.extractLsb' 0 8] := by
  obtain ⟨h, _⟩ | ⟨h, _⟩ | ⟨h, _⟩ | ⟨h, _⟩ := reglen_cases c addr
  · exact absurd h hwidth
  · rw [h]
    change beBytes 3 (value.toNat % 256 ^ 3) = _
    rw [beBytes_mod 3 3 _ le_rfl, beBytes_succ_toNat, beBytes_succ_toNat, beBytes_succ_toNat]
    rfl
  · rw [h, regWriteValue_two, beBytes_succ_toNat, beBytes_succ_toNat]
    rfl
  · rw [h]
    change beBytes 1 (value.toNat % 256 ^ 1) = _
    rw [beBytes_mod 1 1 _ le_rfl, beBytes_succ_toNat]
    rfl

/-- Settles O38: the two-segment form is the one of the plain write. -/
theorem registerWriteIsAMaskedTransfer : Obligations.RegisterWriteIsAMaskedTransfer := by
  intro addr value s hwidth hregion m data
  have haccepted : ¬ regRefused s.cfg s.addrAsc addr = true := fun h => (regRefused_iff.mp h).elim hwidth hregion
  have htransfer : exec (.regWr addr value) s = exec (.xferWr addr data) s := by
    rw [exec_regWr_of_accepted haccepted, beBytes_regWriteValue hwidth]
  refine ⟨htransfer, fun hcrc hlen => ?_⟩
  rw [htransfer]
  exact plainWriteSendsTwoSegments addr data s hcrc hlen

theorem unbe_pair (b1 b0 : Byte) : unbe [b1, b0] = (b1 ++ b0).toNat := by
  have hbelow : b0.toNat < 2 ^ 8 := b0.isLt
  rw [unbe_cons, unbe_cons, unbe_nil, BitVec.toNat_append, Nat.shiftLeft_eq, Nat.mul_comm b1.toNat (2 ^ 8),
    ← Nat.two_pow_add_eq_or_of_lt hbelow]
  simp only [List.length_cons, List.length_nil]
  omega

/-- Masking a pair of bytes masks each with its half of the mask (R88). -/
theorem append_and (b1 b0 : Byte) (mask : BitVec 16) :
    (b1 ++ b0) &&& mask = (b1 &&& mask.extractLsb' 8 8) ++ (b0 &&& mask.extractLsb' 0 8) := by
  have hhalves : mask.extractLsb' 8 8 ++ mask.extractLsb' 0 8 = mask :=
    (BitVec.extractLsb'_append_extractLsb'_eq_extractLsb' rfl).trans BitVec.extractLsb'_eq_self
  rw [← BitVec.and_append, hhalves]

/-- What `REG.RD` answers for the bytes of a register, by their number (R34, R88). -/
def regReadBytes (c : Config) : List Byte → List Byte
  | [b0] => [0#8, 0#8, b0]
  | [b1, b0] => [0#8, b1 &&& c.dac16Mask.extractLsb' 8 8, b0 &&& c.dac16Mask.extractLsb' 0 8]
  | other => other

/-- Leading zero bytes do not change the value: the register's value is zero-extended (R88). -/
theorem unbe_zero_cons (s : List Byte) : unbe (0#8 :: s) = unbe s := by
  rw [unbe_cons, BitVec.toNat_zero, Nat.zero_mul, Nat.zero_add]

/-- The masked and zero-extended value of a register of each width, in bytes (R88). -/
theorem beBytes_regReadValue {c : Config} {addr : Byte} (hwidth : reglen c addr ≠ 0) {bytes : List Byte}
    (hlen : bytes.length = reglen c addr) :
    beBytes 3 (regReadValue c (reglen c addr) bytes) = regReadBytes c bytes := by
  obtain ⟨h, _⟩ | ⟨h, _⟩ | ⟨h, _⟩ | ⟨h, _⟩ := reglen_cases c addr
  · exact absurd h hwidth
  · rw [h] at hlen ⊢
    obtain ⟨b2, b1, b0, rfl⟩ := List.length_eq_three.mp hlen
    exact beBytes_unbe [b2, b1, b0]
  · rw [h] at hlen ⊢
    obtain ⟨b1, b0, rfl⟩ := List.length_eq_two.mp hlen
    rw [regReadValue, dacMask, if_pos rfl, unbe_pair, ← BitVec.toNat_and, append_and, ← unbe_pair,
      ← unbe_zero_cons]
    exact beBytes_unbe [0#8, _, _]
  · rw [h] at hlen ⊢
    obtain ⟨b0, rfl⟩ := List.length_eq_one_iff.mp hlen
    change beBytes 3 (unbe [b0]) = _
    rw [← unbe_zero_cons, ← unbe_zero_cons]
    exact beBytes_unbe [0#8, 0#8, b0]

/-- The width of a register is a byte count that `XFER.RD` can express. -/
theorem toNat_ofNat_reglen (c : Config) (addr : Byte) : (BitVec.ofNat 8 (reglen c addr)).toNat = reglen c addr := by
  have hwidth := reglen_le c addr
  rw [BitVec.toNat_ofNat]
  omega

/-- How the response of `REG.RD` comes from that of the read transfer (R88). -/
theorem regReadEnding_response {s : State} {addr : Byte} (hwidth : reglen s.cfg addr ≠ 0) :
    (regReadEnding s.cfg (reglen s.cfg addr) (s.memRead addr (reglen s.cfg addr)).1).response =
      let r := (s.memRead addr (reglen s.cfg addr)).1.response
      if r.status = .ok then ⟨.ok, regReadBytes s.cfg r.result⟩ else r := by
  cases hending : (s.memRead addr (reglen s.cfg addr)).1 with
  | ok bytes =>
    rw [regReadEnding, beBytes_regReadValue hwidth (State.memRead_ok_length hending)]
    rfl
  | raise st =>
    have hst : st ≠ .ok := by
      rintro rfl
      rcases s.memRead_spec addr (reglen s.cfg addr) with ⟨h, _⟩ | ⟨h, _⟩ <;> simp [hending] at h
    exact (if_neg hst).symm

/-- Settles O39: the answer is that of the read transfer, read back from its bytes on `OK`. -/
theorem registerReadIsAMaskedTransfer : Obligations.RegisterReadIsAMaskedTransfer := by
  intro addr s hwidth hregion value
  have haccepted : ¬ regRefused s.cfg s.addrAsc addr = true := fun h => (regRefused_iff.mp h).elim hwidth hregion
  have hvalue : value = regReadBytes s.cfg := rfl
  have hresponses := (s.memRead_busOnly addr (reglen s.cfg addr)).responses
  rw [hvalue]
  constructor
  · refine ⟨(s.memRead addr (reglen s.cfg addr)).2, (s.memRead addr (reglen s.cfg addr)).1.response, ?_, ?_⟩
    · rw [exec_xferRd, toNat_ofNat_reglen, State.finish_eq, hresponses]
    · rw [exec_regRd_of_accepted haccepted, State.finish_eq, regReadEnding_response hwidth, hresponses]
  · intro hcrc hlen
    obtain ⟨rx1, rx2, hrx1, hrx2, hread, _⟩ := State.memRead_plain_eq (addr := addr) hcrc hlen
    refine ⟨rx1, rx2, hrx1, hrx2, ?_⟩
    rw [exec_regRd_of_accepted haccepted, hread, regReadEnding, beBytes_regReadValue hwidth hrx2]
    rfl

end Sys2Proof.Machine
end

section
/-! SUPPORT. The statements of the family 41_framer (spec/41_framer.md) on the CRC-secured transfers: the chunks go out
one segment each (R78, R80, R82), and what ends the transfer early (R79, R81, R84). -/

namespace Sys2Proof.Machine

open Sys2Proof.Spec

/-! ### The segments of a transfer -/

/-- The first segment carries the release exactly where nothing is planned behind it (R82). -/
theorem segments_cons (tx rx : List Byte) (txs rxs : List (List Byte)) :
    segments (tx :: txs) (rx :: rxs) = .seg tx rx txs.isEmpty :: segments txs rxs := by
  have hlast : decide (0 = txs.length) = txs.isEmpty := by cases txs <;> rfl
  simp only [segments, List.length_cons, List.range_succ_eq_map, List.map_cons, List.map_map, Function.comp_def,
    List.getD_cons_zero, List.getD_cons_succ, Nat.succ_eq_add_one, Nat.add_right_cancel_iff, hlast]

/-- The device answers with what it has ready first (log 2). -/
theorem State.answer_take (s : State) (tx : List Byte) (release : Bool) :
    (s.answer tx release).take s.devRx.length = s.devRx.take tx.length := by
  apply List.ext_getElem
  · simp [Nat.min_comm]
  · intro j hanswer hscript
    rw [List.length_take, lt_inf_iff] at hscript
    simp only [State.answer, List.getElem_take, List.getElem_map, List.getElem_range]
    exact List.getD_eq_getElem _ _ hscript.2

/-- Of the planned sendings `txs` as many as there are answers `rxs` have gone out, from `s` to `t`, one segment each,
chip select held until the last planned one (R82). -/
structure Sent (txs rxs : List (List Byte)) (s t : State) : Prop where
  lengths : ∀ j < rxs.length, (rxs.getD j []).length = (txs.getD j []).length
  script : rxs.flatten.take s.devRx.length = s.devRx.take rxs.flatten.length
  state : t = { s with
    csActive := if rxs = [] then s.csActive else decide (rxs.length < txs.length)
    devRx := s.devRx.drop rxs.flatten.length
    bus := s.bus ++ segments txs rxs }

section sent

variable {txs rxs : List (List Byte)} {s t : State}

theorem Sent.nil (txs : List (List Byte)) (s : State) : Sent txs [] s s where
  lengths := fun j hj => by simp at hj
  script := by simp
  state := by simp [segments]

/-- One more segment in front of those that have gone out, with release where nothing is planned behind it. -/
theorem Sent.cons {tx : List Byte} {release : Bool} (hrelease : release = txs.isEmpty)
    (h : Sent txs rxs (s.afterSeg tx release) t) : Sent (tx :: txs) (s.answer tx release :: rxs) s t where
  lengths := by
    rintro (_ | j) hj
    · exact s.answer_length tx _
    · exact h.lengths j (by simpa using hj)
  script := by
    have hrest := h.script
    rw [State.afterSeg_devRx, List.length_drop] at hrest
    rw [List.flatten_cons, List.take_append, State.answer_take, State.answer_length, hrest, List.length_append,
      State.answer_length, List.take_add]
  state := by
    have hheld : (if rxs = [] then !release else decide (rxs.length < txs.length)) =
        decide (rxs.length < txs.length) := by
      rw [hrelease]
      cases rxs <;> cases txs <;> simp
    rw [h.state, State.afterSeg_csActive, hheld, segments_cons, ← hrelease]
    simp [State.afterSeg]

theorem Sent.csActive (h : Sent txs rxs s t) (hrxs : rxs ≠ []) : t.csActive = decide (rxs.length < txs.length) := by
  rw [h.state, if_neg hrxs]

/-- The command that ends behind its last planned segment. -/
theorem Sent.finish_complete (h : Sent txs rxs s t) (hlen : rxs.length = txs.length) (hne : txs ≠ []) (e : Ending) :
    t.finish e = { s with
      csActive := false
      devRx := s.devRx.drop rxs.flatten.length
      bus := s.bus ++ segments txs rxs
      responses := s.responses ++ [e.response] } := by
  have hrxs : rxs ≠ [] := by
    rintro rfl
    exact hne (List.length_eq_zero_iff.mp hlen.symm)
  rw [State.finish_eq, h.state, if_neg hrxs, hlen, decide_eq_false (lt_irrefl _)]

theorem State.releaseCs_of_released (h : s.csActive = false) : s.releaseCs = s := by
  simp [State.releaseCs, h]

theorem State.releaseCs_of_held (h : s.csActive = true) :
    s.releaseCs = { s with csActive := false, bus := s.bus ++ [.csRelease] } := by
  simp [State.releaseCs, h]

/-- The command that is aborted behind its segment `m`: chip select is released there if that was not the last one
planned (R84). -/
theorem Sent.finish_aborted (h : Sent txs rxs s t) {m : Nat} (hlen : rxs.length = m + 1) (hm : m < txs.length)
    (e : Ending) :
    t.releaseCs.finish e = { s with
      csActive := false
      devRx := s.devRx.drop rxs.flatten.length
      bus := s.bus ++ segments txs rxs ++ (if m + 1 = txs.length then [] else [.csRelease])
      responses := s.responses ++ [e.response] } := by
  have hrxs : rxs ≠ [] := List.ne_nil_of_length_eq_add_one hlen
  by_cases hlast : m + 1 = txs.length
  · have hcs : t.csActive = false := by
      rw [h.csActive hrxs, hlen, hlast]
      exact decide_eq_false (lt_irrefl _)
    rw [State.releaseCs_of_released hcs, h.finish_complete (hlen.trans hlast)
      (List.ne_nil_of_length_eq_add_one hlast.symm), if_pos hlast, List.append_nil]
  · have hcs : t.csActive = true := by
      rw [h.csActive hrxs, hlen]
      exact decide_eq_true (by omega)
    rw [State.releaseCs_of_held hcs, State.finish_eq, h.state, if_neg hlast]

end sent

/-! ### The write chunks -/

theorem chunkOut_eq_writeTx (c : Config) (T : Vector Byte 256) (instr : Byte) (data : List Byte) :
    chunkOut c T instr data = writeTx c T instr data := rfl

/-- The last byte received with segment `j` is the last one sent (R79). -/
def Echoed (txs rxs : List (List Byte)) (j : Nat) : Prop := (rxs.getD j []).getLast? = (txs.getD j []).getLast?

/-- The check of R79 is on the last byte, since the CRC byte is the last one sent. -/
theorem getLast?_eq_iff_of_length {rx front : List Byte} {crc : Byte} (hlen : rx.length = (front ++ [crc]).length) :
    rx.getLast? = (front ++ [crc]).getLast? ↔ rx.getD ((front ++ [crc]).length - 1) 0#8 = crc := by
  have hpos : rx.length - 1 < rx.length := by simp [hlen]
  rw [← hlen, List.getLast?_concat, List.getLast?_eq_getElem?, List.getElem?_eq_getElem hpos, Option.some_inj,
    List.getD_eq_getElem _ _ hpos]

/-- The echo check of a write chunk compares the last bytes. -/
theorem echo_iff (s : State) (T : Vector Byte 256) (instr : Byte) (data : List Byte) (ck : Chunk) (release : Bool) :
    (s.answer (writeTx s.cfg T instr data ck) release).getD ((writeTx s.cfg T instr data ck).length - 1) 0#8 =
        chunkCrc s.cfg T instr data ck ↔
      (s.answer (writeTx s.cfg T instr data ck) release).getLast? = (writeTx s.cfg T instr data ck).getLast? :=
  (getLast?_eq_iff_of_length (State.answer_length _ _ _)).symm

/-- What the write chunks of a plan do (R78, R79, R84): all go out and are echoed, or the last one that goes out is the
first not echoed. -/
theorem State.crcWrite_sends (T : Vector Byte 256) (instr : Byte) (data : List Byte) (plan : List Chunk) (s : State) :
    ∃ (rxs : List (List Byte)) (t : State), Sent (plan.map (writeTx s.cfg T instr data)) rxs s t ∧
      ((rxs.length = plan.length ∧ (∀ j < plan.length, Echoed (plan.map (writeTx s.cfg T instr data)) rxs j) ∧
        State.crcWrite T instr data plan s = (.ok [], t)) ∨
      (∃ m, rxs.length = m + 1 ∧ m < plan.length ∧
        (∀ j < m, Echoed (plan.map (writeTx s.cfg T instr data)) rxs j) ∧
        ¬ Echoed (plan.map (writeTx s.cfg T instr data)) rxs m ∧
        State.crcWrite T instr data plan s = (.raise .badMessage, t.releaseCs))) := by
  induction plan generalizing s with
  | nil => exact ⟨[], s, Sent.nil _ s, .inl ⟨rfl, fun j hj => by simp at hj, rfl⟩⟩
  | cons ck rest ih =>
    have hend : rest.isEmpty = (rest.map (writeTx s.cfg T instr data)).isEmpty := List.isEmpty_map.symm
    simp only [State.crcWrite, echo_iff, List.map_cons]
    split
    · next hecho =>
      obtain ⟨rxs, t, hsent, hrun⟩ := ih (s.afterSeg (writeTx s.cfg T instr data ck) rest.isEmpty)
      rw [State.afterSeg_cfg] at hsent hrun
      refine ⟨_ :: rxs, t, hsent.cons hend, ?_⟩
      obtain ⟨hlen, hall, hrun⟩ | ⟨m, hlen, hm, hbefore, hat, hrun⟩ := hrun
      · refine .inl ⟨congrArg (· + 1) hlen, ?_, hrun⟩
        rintro (_ | j) hj
        · exact hecho
        · exact hall j (Nat.lt_of_succ_lt_succ hj)
      · refine .inr ⟨m + 1, congrArg (· + 1) hlen, Nat.succ_lt_succ hm, ?_, hat, hrun⟩
        rintro (_ | j) hj
        · exact hecho
        · exact hbefore j (Nat.lt_of_succ_lt_succ hj)
    · next hecho =>
      exact ⟨[_], _, (Sent.nil _ _).cons hend, .inr ⟨0, rfl, Nat.succ_pos _, fun j hj => by simp at hj, hecho, rfl⟩⟩

theorem State.memWrite_of_plan {s : State} {addr : Byte} {data : List Byte} {tb : CrcTable} {plan : List Chunk}
    (hcrc : s.crcEn = true) (hlen : LengthOk s.cfg data.length) (htable : s.crc = some tb)
    (hplan : chunkPlan s.cfg s.addrAsc s.streamLen addr data.length = some plan) :
    s.memWrite addr data = State.crcWrite tb.table (instrWr s.cfg addr) data plan s := by
  rw [State.memWrite, badLength_of_lengthOk hlen, hcrc, State.secure_of_plan_and_table hplan htable, instrByte_write]
  rfl

/-- Settles O35: a transfer that has bytes has a chunk, so its last segment releases chip select. -/
theorem crcWriteSendsThePlannedChunks : Obligations.CrcWriteSendsThePlannedChunks := by
  intro addr data s tb plan hcrc hlen htable hplan txs
  obtain ⟨first, rest, rfl, _⟩ := chunkPlan_eq_cons hlen.1 hplan
  obtain ⟨rxs, t, hsent, hrun⟩ :=
    State.crcWrite_sends tb.table (instrWr s.cfg addr) data (first :: rest) s
  rw [← chunkOut_eq_writeTx] at hsent
  have htxs : txs.length = (first :: rest).length := List.length_map _
  refine ⟨rxs, hsent.lengths, hsent.script, ?_⟩
  rw [exec_xferWr, State.memWrite_of_plan hcrc hlen htable hplan]
  obtain ⟨hcount, hall, hrun⟩ | ⟨m, hcount, hm, hbefore, hat, hrun⟩ := hrun
  · refine .inl ⟨hcount, hall, ?_⟩
    rw [hrun, hsent.finish_complete (hcount.trans htxs.symm) (List.cons_ne_nil _ _)]
    rfl
  · refine .inr ⟨m, hcount, hm, hbefore, hat, ?_⟩
    rw [hrun, hsent.finish_aborted hcount (htxs ▸ hm), ← htxs]
    rfl

/-- A write of one chunk is one segment with release, and its echo decides. -/
theorem State.crcWrite_single (T : Vector Byte 256) (instr : Byte) (data : List Byte) (ck : Chunk) (s : State) :
    State.crcWrite T instr data [ck] s =
      (if (s.answer (writeTx s.cfg T instr data ck) true).getLast? = (writeTx s.cfg T instr data ck).getLast?
        then .ok [] else .raise .badMessage, s.afterSeg (writeTx s.cfg T instr data ck) true) := by
  simp only [State.crcWrite, echo_iff, List.isEmpty_nil,
    State.releaseCs_of_released (State.afterSeg_csActive s _ true)]
  split <;> rfl

/-- The bytes of the one chunk of a whole buffer: its CRC is folded from the instruction byte on (R62, R78). -/
theorem writeTx_whole (c : Config) (T : Vector Byte 256) (instr addr : Byte) (data : List Byte) :
    writeTx c T instr data ⟨0, addr, data.length, 0⟩ = instr :: data ++ [crc8 T (instr :: data) c.crcSeed] := by
  simp [writeTx, chunkCrc, leadBytes, slice]

/-- A script that begins with as many bytes as are sent is answered with them, and the rest is left. -/
theorem State.answer_of_script_append {s : State} {tx rx more : List Byte} (hscript : s.devRx = rx ++ more)
    (hlen : rx.length = tx.length) (release : Bool) :
    s.answer tx release = rx ∧ (s.afterSeg tx release).devRx = more := by
  have hready : tx.length ≤ s.devRx.length := by
    rw [hscript, List.length_append]
    omega
  rw [State.answer_of_script s tx release hready, State.afterSeg_devRx, hscript, ← hlen, List.take_left, List.drop_left]
  exact ⟨rfl, rfl⟩

/-- Settles O37: the device's last byte is the one it has ready behind the others. -/
theorem singleChunkWriteGoesByTheEcho : Obligations.SingleChunkWriteGoesByTheEcho := by
  intro addr data rx more s tb e hcrc hlen htable hplan hscript hrx c
  have hready : s.devRx = (rx ++ [e]) ++ more := by simp [hscript]
  have hcount : (rx ++ [e]).length = (instrWr s.cfg addr :: data ++ [c]).length := by simp [hrx]
  obtain ⟨hanswer, hleft⟩ := State.answer_of_script_append hready hcount true
  have hsent : s.afterSeg (instrWr s.cfg addr :: data ++ [c]) true = { s with
      csActive := false
      devRx := more
      bus := s.bus ++ [.seg (instrWr s.cfg addr :: data ++ [c]) (rx ++ [e]) true] } := by
    rw [← hleft, ← hanswer]
    rfl
  rw [exec_xferWr, State.memWrite_of_plan hcrc hlen htable hplan, State.crcWrite_single, writeTx_whole, hanswer, hsent,
    List.getLast?_concat, List.getLast?_concat, State.finish_eq]
  by_cases hecho : e = c
  · rw [if_pos (congrArg some hecho), if_pos hecho]
    rfl
  · rw [if_neg (mt Option.some.inj hecho), if_neg hecho]
    rfl

/-! ### The read chunks -/

theorem chunkFill_eq_readTx (c : Config) (instr : Byte) : chunkFill c instr = readTx c instr := rfl

theorem chunkIn_eq_readBytes : chunkIn = readBytes := rfl

/-- Chunk 0 passes by its CRC byte (R81). -/
theorem readPasses_first_iff {ck : Chunk} (h : ck.index = 0) (c : Config) (T : Vector Byte 256) (instr : Byte)
    (rx : List Byte) : readPasses c T instr ck rx = true ↔ FirstPasses c T instr ck rx := by
  simp [readPasses, readCrc, readBytes, slice, FirstPasses, h]

/-- A later chunk passes unchecked (R80). -/
theorem readPasses_later {ck : Chunk} (h : ck.index ≠ 0) (c : Config) (T : Vector Byte 256) (instr : Byte)
    (rx : List Byte) : readPasses c T instr ck rx = true := by
  simp [readPasses, h]

/-- What the chunks behind chunk 0 do: all go out, and their register bytes are gathered (R80). -/
theorem State.crcRead_sends_later {T : Vector Byte 256} {instr : Byte} {plan : List Chunk}
    (hlater : ∀ ck ∈ plan, ck.index ≠ 0) (out : List Byte) (s : State) :
    ∃ (rxs : List (List Byte)) (t : State), Sent (plan.map (readTx s.cfg instr)) rxs s t ∧
      rxs.length = plan.length ∧
      State.crcRead T instr plan out s = (.ok (out ++ (List.zipWith readBytes plan rxs).flatten), t) := by
  induction plan generalizing s out with
  | nil => exact ⟨[], s, Sent.nil _ s, rfl, by simp [State.crcRead]⟩
  | cons ck rest ih =>
    have hend : rest.isEmpty = (rest.map (readTx s.cfg instr)).isEmpty := List.isEmpty_map.symm
    obtain ⟨hck, hrest⟩ := List.forall_mem_cons.mp hlater
    simp only [State.crcRead, readPasses_later hck, if_true, List.map_cons]
    obtain ⟨rxs, t, hsent, hcount, hrun⟩ := ih hrest
      (out ++ readBytes ck (s.answer (readTx s.cfg instr ck) rest.isEmpty))
      (s.afterSeg (readTx s.cfg instr ck) rest.isEmpty)
    rw [State.afterSeg_cfg] at hsent
    refine ⟨_ :: rxs, t, hsent.cons hend, congrArg (· + 1) hcount, ?_⟩
    rw [hrun, List.append_assoc]
    rfl

/-- What the read chunks of a plan do (R80, R81, R84): chunk 0 passes and all go out, or it does not and goes out
alone. -/
theorem State.crcRead_sends {T : Vector Byte 256} {instr : Byte} {first : Chunk} {rest : List Chunk}
    (hfirst : first.index = 0) (hlater : ∀ ck ∈ rest, ck.index ≠ 0) (s : State) :
    ∃ (rxs : List (List Byte)) (t : State), Sent ((first :: rest).map (readTx s.cfg instr)) rxs s t ∧
      ((rxs.length = (first :: rest).length ∧ FirstPasses s.cfg T instr first (rxs.getD 0 []) ∧
        State.crcRead T instr (first :: rest) [] s =
          (.ok (List.zipWith readBytes (first :: rest) rxs).flatten, t)) ∨
      (rxs.length = 1 ∧ ¬ FirstPasses s.cfg T instr first (rxs.getD 0 []) ∧
        State.crcRead T instr (first :: rest) [] s = (.raise .badMessage, t.releaseCs))) := by
  have hend : rest.isEmpty = (rest.map (readTx s.cfg instr)).isEmpty := List.isEmpty_map.symm
  simp only [State.crcRead, List.map_cons, List.nil_append]
  split
  · next hpasses =>
    obtain ⟨rxs, t, hsent, hcount, hrun⟩ := State.crcRead_sends_later (T := T) (instr := instr) hlater
      (readBytes first (s.answer (readTx s.cfg instr first) rest.isEmpty))
      (s.afterSeg (readTx s.cfg instr first) rest.isEmpty)
    rw [State.afterSeg_cfg] at hsent
    exact ⟨_ :: rxs, t, hsent.cons hend,
      .inl ⟨congrArg (· + 1) hcount, (readPasses_first_iff hfirst _ _ _ _).mp hpasses, hrun⟩⟩
  · next hfails =>
    exact ⟨[_], _, (Sent.nil _ _).cons hend, .inr ⟨rfl, mt (readPasses_first_iff hfirst _ _ _ _).mpr hfails, rfl⟩⟩

theorem State.memRead_of_plan {s : State} {addr : Byte} {n : Nat} {tb : CrcTable} {plan : List Chunk}
    (hcrc : s.crcEn = true) (hlen : LengthOk s.cfg n) (htable : s.crc = some tb)
    (hplan : chunkPlan s.cfg s.addrAsc s.streamLen addr n = some plan) :
    s.memRead addr n = State.crcRead tb.table (instrRd s.cfg addr) plan [] s := by
  rw [State.memRead, badLength_of_lengthOk hlen, hcrc, State.secure_of_plan_and_table hplan htable, instrByte_read]
  rfl

/-- Settles O36: chunk 0 is the plan's head, and no other chunk is number 0. -/
theorem crcReadChecksTheFirstChunkOnly : Obligations.CrcReadChecksTheFirstChunkOnly := by
  intro addr n s tb plan hcrc hlen htable hplan txs
  obtain ⟨first, rest, rfl, hfirst, hlater⟩ := chunkPlan_eq_cons hlen.1 hplan
  obtain ⟨rxs, t, hsent, hrun⟩ :=
    State.crcRead_sends (T := tb.table) (instr := instrRd s.cfg addr) hfirst hlater s
  rw [← chunkFill_eq_readTx] at hsent
  have htxs : txs.length = (first :: rest).length := List.length_map _
  refine ⟨first, rxs, rfl, hsent.lengths, hsent.script, ?_⟩
  rw [exec_xferRd, State.memRead_of_plan hcrc hlen htable hplan, chunkIn_eq_readBytes]
  obtain ⟨hcount, hpasses, hrun⟩ | ⟨hcount, hfails, hrun⟩ := hrun
  · refine .inl ⟨hcount, hpasses, ?_⟩
    rw [hrun, hsent.finish_complete (hcount.trans htxs.symm) (List.cons_ne_nil _ _)]
    rfl
  · refine .inr ⟨hcount, hfails, ?_⟩
    rw [hrun, hsent.finish_aborted hcount (Nat.succ_pos _)]
    simp only [← htxs, eq_comm (a := txs.length)]
    rfl

end Sys2Proof.Machine
end

section
/-! SUPPORT. The statements of the family 42_control (spec/42_control.md): CSR numbers (R95), what CSR.WR sets and CSR.RD
answers (R97, R98), and that the writable bits are read back (R96). -/

namespace Sys2Proof.Machine

open Sys2Proof.Spec

/-! ### The numbers of the control registers -/

/-- The number of a control register (R95). -/
def Csr.number : Csr → Nat
  | .ctrl => 0
  | .spicfg => 1
  | .streamlen => 2
  | .status => 3
  | .polyr => 4

theorem Csr.number_le (r : Csr) : r.number ≤ 4 := by
  cases r <;> decide

theorem Csr.exists_number_eq {n : Nat} (h : n ≤ 4) : ∃ r : Csr, n = r.number := by
  match n with
  | 0 => exact ⟨.ctrl, rfl⟩
  | 1 => exact ⟨.spicfg, rfl⟩
  | 2 => exact ⟨.streamlen, rfl⟩
  | 3 => exact ⟨.status, rfl⟩
  | 4 => exact ⟨.polyr, rfl⟩

theorem Csr.ofByte_eq_some_iff {b : Byte} {r : Csr} : Csr.ofByte b = some r ↔ b.toNat = r.number := by
  constructor
  · intro h
    unfold Csr.ofByte at h
    split at h
    case h_6 => cases h
    all_goals
      next hb =>
        cases h
        exact hb
  · intro h
    rw [Csr.ofByte, h]
    cases r <;> rfl

/-- The numbers above 4 name no register (R19). -/
theorem Csr.ofByte_eq_none {b : Byte} (h : 5 ≤ b.toNat) : Csr.ofByte b = none := by
  cases hr : Csr.ofByte b with
  | none => rfl
  | some r =>
    have hnumber := Csr.ofByte_eq_some_iff.mp hr
    have hle := r.number_le
    omega

/-! ### The bits of a register -/

/-- A flag stands in bit 0 of its byte. -/
theorem getLsbD_flagByte (b : Bool) (i : Nat) : (flagByte b).getLsbD i = (decide (i = 0) && b) := by
  cases b <;> simp [flagByte, BitVec.getLsbD_one]

/-- The three flags of `SPICFG` stand in bits 0, 1 and 2 (R16), and every other bit is 0. -/
theorem getLsbD_spicfg (a b c : Bool) (i : Nat) :
    (flagByte a ||| flagByte b <<< 1 ||| flagByte c <<< 2).getLsbD i =
      (decide (i = 0) && a || decide (i = 1) && b || decide (i = 2) && c) := by
  simp only [BitVec.getLsbD_or, BitVec.getLsbD_shiftLeft, getLsbD_flagByte]
  match i with
  | 0 | 1 | 2 => simp
  | i + 3 => simp

/-- Bits 3 to 7 of `SPICFG` are reserved (R16). -/
theorem spicfg_reserved (a b c : Bool) :
    (flagByte a ||| flagByte b <<< 1 ||| flagByte c <<< 2) &&& 0xF8#8 = 0x00#8 := by
  revert a b c
  decide

/-- The writable bit of `CTRL` as a flag (R15, R96). -/
theorem flagByte_bit_zero (v : Byte) : flagByte (v.getLsbD 0) = v &&& 0x01#8 := by
  apply BitVec.eq_of_getLsbD_eq
  intro i _
  rw [getLsbD_flagByte, BitVec.getLsbD_and, BitVec.getLsbD_one]
  by_cases hi : i = 0 <;> simp [hi]

/-- The writable bits of `SPICFG` as its three flags (R16, R96). -/
theorem spicfg_of_bits (v : Byte) :
    flagByte (v.getLsbD 0) ||| flagByte (v.getLsbD 1) <<< 1 ||| flagByte (v.getLsbD 2) <<< 2 = v &&& 0x07#8 := by
  have hmask : ∀ i < 8, (0x07#8).getLsbD i = (decide (i = 0) || decide (i = 1) || decide (i = 2)) := by decide
  apply BitVec.eq_of_getLsbD_eq
  intro i hi
  rw [getLsbD_spicfg, BitVec.getLsbD_and, hmask i hi]
  match i with
  | 0 | 1 | 2 => simp
  | i + 3 => simp

/-- `STATUS` says whether there is a table (R18). -/
theorem flagByte_tableValid (s : State) : flagByte s.tableValid = if s.crc = none then 0x00#8 else 0x01#8 := by
  cases h : s.crc <;> simp [State.tableValid, flagByte, h]

/-! ### What a register access does to the state -/

/-- The registers from number 3 up are read-only (R96). -/
theorem State.csrWrite_eq_none_iff {s : State} {v : Byte} {r : Csr} : s.csrWrite v r = none ↔ 3 ≤ r.number := by
  cases r <;> simp [State.csrWrite, Csr.number]

/-- What a CSR holds after a write is the value under the register's mask (R96). -/
theorem State.csrValue_of_csrWrite {s t : State} {v : Byte} {r : Csr} (h : s.csrWrite v r = some t) :
    t.csrValue r = .ok [v &&& wmask r.number] := by
  cases r with
  | ctrl =>
    cases h
    exact congrArg (fun b => Ending.ok [b]) (flagByte_bit_zero v)
  | spicfg =>
    cases h
    exact congrArg (fun b => Ending.ok [b]) (spicfg_of_bits v)
  | streamlen =>
    cases h
    exact congrArg (fun b => Ending.ok [b]) BitVec.and_allOnes.symm
  | status | polyr => cases h

/-- Responding is no access to a CSR. -/
@[simp] theorem State.respond_csrValue (s : State) (st : Status) (data : List Byte) (r : Csr) :
    (s.respond st data).csrValue r = s.csrValue r := by
  cases r <;> rfl

/-! ### The instructions -/

theorem exec_csrWr_of_csrWrite {csr v : Byte} {s t : State} {r : Csr} (hr : csr.toNat = r.number)
    (hwrite : s.csrWrite v r = some t) : exec (.csrWr csr v) s = answeredWith t [] := by
  change execCsrWr csr v s = answeredWith t []
  simp only [execCsrWr, Csr.ofByte_eq_some_iff.mpr hr, hwrite]
  rfl

/-- The two reasons to refuse a write: the number names no register, or one that is read-only (R97). -/
theorem exec_csrWr_of_not_writable {csr : Byte} (h : 3 ≤ csr.toNat) (v : Byte) (s : State) :
    exec (.csrWr csr v) s = refusedWith s .invalidArgument := by
  change execCsrWr csr v s = refusedWith s .invalidArgument
  cases hr : Csr.ofByte csr with
  | none =>
    simp only [execCsrWr, hr]
    rfl
  | some r =>
    have hreadOnly : s.csrWrite v r = none :=
      State.csrWrite_eq_none_iff.mpr (Csr.ofByte_eq_some_iff.mp hr ▸ h)
    simp only [execCsrWr, hr, hreadOnly]
    rfl

/-- A read of a register that is there ends as the register's value says (R98). -/
theorem exec_csrRd_of_number {csr : Byte} {r : Csr} (hr : csr.toNat = r.number) (s : State) :
    exec (.csrRd csr) s = .next (s.finish (s.csrValue r)) := by
  change execCsrRd csr s = .next (s.finish (s.csrValue r))
  simp only [execCsrRd, Csr.ofByte_eq_some_iff.mpr hr]

theorem exec_csrRd_of_value {csr : Byte} {s : State} {r : Csr} {data : List Byte} (hr : csr.toNat = r.number)
    (hvalue : s.csrValue r = .ok data) : exec (.csrRd csr) s = answeredWith s data := by
  rw [exec_csrRd_of_number hr, hvalue]
  rfl

/-- `POLYR` is not there to be read while there is no table (R98). -/
theorem exec_csrRd_polyr_without_table {csr : Byte} {s : State} (hr : csr.toNat = 4) (hnone : s.crc = none) :
    exec (.csrRd csr) s = refusedWith s .notReady := by
  rw [exec_csrRd_of_number (r := .polyr) hr, State.csrValue, hnone]
  rfl

theorem exec_csrRd_of_unnamed {csr : Byte} (h : 5 ≤ csr.toNat) (s : State) :
    exec (.csrRd csr) s = refusedWith s .invalidArgument := by
  change execCsrRd csr s = refusedWith s .invalidArgument
  simp only [execCsrRd, Csr.ofByte_eq_none h]
  rfl

/-- Settles O43: the number picks the register, and the register the fields. -/
theorem csrWriteSetsTheFields : Obligations.CsrWriteSetsTheFields := by
  intro csr v s
  refine ⟨decode_eq_instr_iff.mpr ⟨.csrWr, _, rfl, rfl⟩, ?ctrl, ?spicfg, ?streamlen, ?refused⟩
  case ctrl => exact fun hr => exec_csrWr_of_csrWrite (r := .ctrl) hr rfl
  case spicfg => exact fun hr => exec_csrWr_of_csrWrite (r := .spicfg) hr rfl
  case streamlen => exact fun hr => exec_csrWr_of_csrWrite (r := .streamlen) hr rfl
  case refused => exact fun h => exec_csrWr_of_not_writable h v s

/-- Settles O44: the number picks the register, and the register's value is the answer. -/
theorem csrReadAnswersTheRegister : Obligations.CsrReadAnswersTheRegister := by
  intro csr s
  refine ⟨decode_eq_instr_iff.mpr ⟨.csrRd, _, rfl, rfl⟩, ?ctrl, ?spicfg, ?streamlen, ?status, ?polyr, ?noTable,
    ?unnamed⟩
  case ctrl => exact fun hr => exec_csrRd_of_value (r := .ctrl) hr rfl
  case spicfg =>
    intro hr
    exact ⟨_, exec_csrRd_of_value (r := .spicfg) hr rfl, (getLsbD_spicfg _ _ _ 0).trans (by simp),
      (getLsbD_spicfg _ _ _ 1).trans (by simp), (getLsbD_spicfg _ _ _ 2).trans (by simp), spicfg_reserved _ _ _⟩
  case streamlen => exact fun hr => exec_csrRd_of_value (r := .streamlen) hr rfl
  case status =>
    intro hr
    rw [← flagByte_tableValid]
    exact exec_csrRd_of_value (r := .status) hr rfl
  case polyr =>
    intro hr tb htable
    refine exec_csrRd_of_value (r := .polyr) hr ?_
    rw [State.csrValue, htable]
  case noTable => exact exec_csrRd_polyr_without_table
  case unnamed => exact fun h => exec_csrRd_of_unnamed h s

/-- Settles O45: the numbers up to 2 name registers that can be written, and a written register holds the value under
its mask, which the response to the write leaves there. -/
theorem csrReadsBackUnderItsMask : Obligations.CsrReadsBackUnderItsMask := by
  intro csr v s hcsr
  obtain ⟨r, hnumber⟩ := Csr.exists_number_eq (by omega : csr.toNat ≤ 4)
  have hwritable : s.csrWrite v r ≠ none := mt State.csrWrite_eq_none_iff.mp (by omega)
  obtain ⟨t, hwrite⟩ := Option.ne_none_iff_exists'.mp hwritable
  refine ⟨t.respond .ok [], exec_csrWr_of_csrWrite hnumber hwrite, exec_csrRd_of_value hnumber ?_⟩
  rw [State.respond_csrValue, State.csrValue_of_csrWrite hwrite, hnumber]

end Sys2Proof.Machine
end

section
/-! SUPPORT. The statements of the family 43_scaler (spec/43_scaler.md) on the computation: the range a channel uses
(R108, R111), and the derived numbers of a range (R114, R117, R123). -/

namespace Sys2Proof.Machine

open Sys2Proof.Spec

/-! ### Division toward zero with a scaled dividend -/

/-- The quotient of a multiple is the multiple of the quotient, and what the multiple of the remainder still holds. -/
theorem tdiv_mul_of_nonneg {a m b : Int} (ha : 0 ≤ a) (hm : 0 ≤ m) (hb : 0 < b) :
    (a * m).tdiv b = a.tdiv b * m + (a.tmod b * m).tdiv b := by
  have hsplit : a * m = a % b * m + b * (a / b * m) := by
    linear_combination -m * Int.emod_add_mul_ediv a b
  rw [Int.tmod_eq_emod_of_nonneg ha, Int.tdiv_eq_ediv_of_nonneg ha, Int.tdiv_eq_ediv_of_nonneg (mul_nonneg ha hm),
    Int.tdiv_eq_ediv_of_nonneg (mul_nonneg (Int.emod_nonneg a hb.ne') hm), hsplit, Int.add_mul_ediv_left _ _ hb.ne',
    add_comm]

theorem tdiv_mul_eq_add (a : Int) {m b : Int} (hm : 0 ≤ m) (hb : 0 < b) :
    (a * m).tdiv b = a.tdiv b * m + (a.tmod b * m).tdiv b := by
  obtain ha | ha := le_total 0 a
  · exact tdiv_mul_of_nonneg ha hm hb
  · have hneg := tdiv_mul_of_nonneg (neg_nonneg.mpr ha) hm hb
    simp only [neg_mul, Int.neg_tdiv, Int.neg_tmod] at hneg
    linarith

theorem tdiv_nonpos {a b : Int} (ha : a ≤ 0) (hb : 0 ≤ b) : a.tdiv b ≤ 0 := by
  have hneg := Int.tdiv_nonneg (neg_nonneg.mpr ha) hb
  rw [Int.neg_tdiv] at hneg
  linarith

theorem tmod_nonpos {a : Int} (b : Int) (ha : a ≤ 0) : a.tmod b ≤ 0 := by
  have hneg := Int.tmod_nonneg b (neg_nonneg.mpr ha)
  rw [Int.neg_tmod] at hneg
  linarith

/-! ### The numbers of a range -/

theorem Range.span_pos_iff {r : Range} : 0 < Range.span r ↔ r.vMin < r.vMax := sub_pos

section numbers

variable {c : Config} {r : Range} (hsrc : c.sourceValues = true)
include hsrc

theorem derivedOf_scaleFrac (hspan : 0 < Range.span r) :
    (derivedOf c r).scaleFrac = (Range.span r % 65536 * 1000000 + 32768) / 65536 := by
  obtain ⟨hcode, hmicro⟩ := Config.codeSpan_micro_of_source hsrc
  have hhalf : Int.tdiv 65536 2 = 32768 := rfl
  rw [derivedOf, hcode, hmicro, hhalf, Int.tmod_eq_emod_of_nonneg hspan.le]
  exact Int.tdiv_eq_ediv_of_nonneg (by omega)

theorem derivedOf_offsetInt : (derivedOf c r).offsetInt = (r.vMin * 65536).tdiv (Range.span r) := by
  rw [derivedOf, (Config.codeSpan_micro_of_source hsrc).1]

theorem derivedOf_offsetFrac :
    (derivedOf c r).offsetFrac = ((r.vMin * 65536).tmod (Range.span r) * 1000000).tdiv (Range.span r) := by
  obtain ⟨hcode, hmicro⟩ := Config.codeSpan_micro_of_source hsrc
  rw [derivedOf, hcode, hmicro]

theorem derivedOf_offset_nonneg (hspan : 0 < Range.span r) (hmin : 0 ≤ r.vMin) :
    0 ≤ (derivedOf c r).offsetInt ∧ 0 ≤ (derivedOf c r).offsetFrac := by
  have hscaled : 0 ≤ r.vMin * 65536 := by omega
  rw [derivedOf_offsetInt hsrc, derivedOf_offsetFrac hsrc]
  exact ⟨Int.tdiv_nonneg hscaled hspan.le,
    Int.tdiv_nonneg (mul_nonneg (Int.tmod_nonneg _ hscaled) (by norm_num)) hspan.le⟩

theorem derivedOf_offset_nonpos (hspan : 0 < Range.span r) (hmin : r.vMin ≤ 0) :
    (derivedOf c r).offsetInt ≤ 0 ∧ (derivedOf c r).offsetFrac ≤ 0 := by
  have hscaled : r.vMin * 65536 ≤ 0 := by omega
  rw [derivedOf_offsetInt hsrc, derivedOf_offsetFrac hsrc]
  exact ⟨tdiv_nonpos hscaled hspan.le,
    tdiv_nonpos (mul_nonpos_of_nonpos_of_nonneg (tmod_nonpos _ hscaled) (by norm_num)) hspan.le⟩

end numbers

/-- Settles O53: both parts are quotients by 65536, and the half added before the second rounds it. -/
theorem scaleIsRoundedToNearest : Obligations.ScaleIsRoundedToNearest := by
  intro c r hsrc hlt d S
  have hspan := Range.span_pos_iff.mpr hlt
  have hint : d.scaleInt = (r.vMax - r.vMin) / 65536 := derivedOf_scaleInt hsrc hspan
  have hfrac : d.scaleFrac = ((r.vMax - r.vMin) % 65536 * 1000000 + 32768) / 65536 := derivedOf_scaleFrac hsrc hspan
  have hS : S = d.scaleInt * 1000000 + d.scaleFrac := rfl
  refine ⟨?_, ?_, ?_, ?_, ?_⟩ <;> omega

/-- Settles O54: the two truncated parts together are the truncated quotient in millionths. -/
theorem offsetIsTruncated : Obligations.OffsetIsTruncated := by
  intro c r hsrc hlt d
  have hspan := Range.span_pos_iff.mpr hlt
  have hvalue : d.offsetInt * 1000000 + d.offsetFrac = (r.vMin * 65536 * 1000000).tdiv (Range.span r) := by
    rw [derivedOf_offsetInt hsrc, derivedOf_offsetFrac hsrc, tdiv_mul_eq_add (r.vMin * 65536) (by norm_num) hspan]
  obtain ⟨hfracMin, hfracMax⟩ := abs_lt.mp (derivedOf_offsetFrac_bounds hsrc hspan)
  exact ⟨hvalue, derivedOf_offset_nonneg hsrc hspan, derivedOf_offset_nonpos hsrc hspan, hfracMin, hfracMax⟩

/-! ### The range a channel uses -/

/-- `OVERRIDE` selects the custom range, and without it `RANGE` an entry of the table (R108). -/
theorem rangeOf_eq_some_iff {c : Config} {ch : Channel} {r : Range} :
    rangeOf c ch = some r ↔
      ch.override = 1#1 ∧ r = customRange c ch ∨
      ch.override = 0#1 ∧ ∃ h : ch.range.toNat < c.rangeTable.length, r = c.rangeTable[ch.range.toNat] := by
  obtain hoverride | hoverride := BitVec.eq_zero_or_eq_one ch.override
  · rw [rangeOf, hoverride, if_neg (by decide), List.getElem?_eq_some_iff]
    simp [eq_comm]
  · rw [rangeOf, hoverride, if_pos rfl]
    simp [eq_comm]

theorem deriveChannel_eq_some_iff {c : Config} {ch : Channel} {d : Derived} :
    deriveChannel c ch = some d ↔ ∃ r, rangeOf c ch = some r ∧ r.vMin < r.vMax ∧ d = derivedOf c r := by
  constructor
  · intro h
    obtain ⟨r, hrange, hspan, hd⟩ := deriveChannel_some h
    exact ⟨r, hrange, Range.span_pos_iff.mp hspan, hd⟩
  · rintro ⟨r, hrange, hlt, rfl⟩
    rw [deriveChannel_of_range hrange, if_neg (not_le.mpr (Range.span_pos_iff.mpr hlt))]

theorem Config.nRanges_le_rangeCustom_of_wf {c : Config} (h : c.wf = true) : c.nRanges ≤ c.rangeCustom.toNat := by
  simp only [Config.wf, Bool.and_eq_true, decide_eq_true_eq] at h
  tauto

/-- The custom marker lies above the table, so that without the override it selects nothing (R108). -/
theorem rangeOf_custom_marker {c : Config} (h : c.wf = true) {ch : Channel} (hoverride : ch.override = 0#1)
    (hrange : ch.range = c.rangeCustom) : rangeOf c ch = none := by
  rw [rangeOf, hoverride, if_neg (by decide), hrange]
  exact List.getElem?_eq_none (Config.nRanges_le_rangeCustom_of_wf h)

/-- Settles O55: the numbers are those of the selected range, if there is one and its span is positive. -/
theorem derivedExactlyWhenSpanIsPositive : Obligations.DerivedExactlyWhenSpanIsPositive := by
  intro c x d hwf
  refine ⟨?_, fun hoverride hrange => ?_⟩
  · simp only [deriveChannel_eq_some_iff, rangeOf_eq_some_iff]
  · rw [deriveChannel, rangeOf_custom_marker hwf hoverride hrange]

/-! ### The custom range -/

theorem Config.customRange_of_source {c : Config} (h : c.sourceValues = true) :
    c.gainTable = [1000, 500, 250, 125] ∧ c.vrefMv = 2500 ∧ c.kMilli = 2575 := by
  simp only [Config.sourceValues, Bool.and_eq_true, beq_iff_eq] at h
  tauto

/-- The gain halves with each code step (R110). -/
theorem gainFactor_of_source {c : Config} (h : c.gainTable = [1000, 500, 250, 125]) (g : BitVec 2) :
    gainFactor c g = 1000 / 2 ^ g.toNat := by
  rw [gainFactor, h]
  revert g
  decide

theorem signedOffset_of_goff_zero {ch : Channel} (h : ch.goff = 0) : signedOffset ch = 0 := by
  simp [signedOffset, h]

/-- With no offset and equal gains, what R111 adds to the reference voltage it also takes from it. -/
theorem customRange_symmetric (c : Config) {ch : Channel} (hgoff : ch.goff = 0) (hgain : ch.gainP = ch.gainN) :
    (customRange c ch).vMin + (customRange c ch).vMax = 2 * c.vrefMv := by
  simp only [customRange, signedOffset_of_goff_zero hgoff, hgain, mul_zero, sub_zero, add_zero]
  ring

/-- Settles O56: the model's formula at the source's values. -/
theorem customRangeFormula : Obligations.CustomRangeFormula := by
  intro c x hsrc gp gn off
  obtain ⟨hgain, hvref, hk⟩ := Config.customRange_of_source hsrc
  refine ⟨?max, ?min, fun hgoff hgains => ?symmetric⟩
  case max =>
    rw [customRange, hvref, hk, gainFactor_of_source hgain x.gainN]
    rfl
  case min =>
    rw [customRange, hvref, hk, gainFactor_of_source hgain x.gainP]
    rfl
  case symmetric =>
    rw [customRange_symmetric c hgoff hgains, hvref]
    rfl

end Sys2Proof.Machine
end

section
/-! SUPPORT. The statements of the family 43_scaler (spec/43_scaler.md) on the instructions: what CH.WR sets (R106),
what CH.RD and the read-outs answer (R107, R118, R119), and the conversion (R116, R120). -/

namespace Sys2Proof.Machine

open Sys2Proof.Spec

/-! ### Who writes a channel -/

theorem BlockEffect.ch_eq {s m : State} {i : Instr} (h : BlockEffect s i m) (hi : ∀ c f v, i ≠ .chWr c f v) :
    m.ch = s.ch := by
  cases h with
  | unchanged => rfl
  | transfer _ hbus _ => exact hbus.sameBlock.ch
  | table => rfl
  | config hwrite => exact State.csrWrite_ch hwrite
  | channel => exact absurd rfl (hi _ _ _)

/-- A `CH.WR` sets at most the channel it names (R106). -/
theorem BlockEffect.ch_of_chWr {s m : State} {c f : Byte} {v : BitVec 16} (h : BlockEffect s (.chWr c f v) m) :
    ∃ x : Channel, m.ch = s.ch ∨ m.ch = s.ch.set c.toNat x := by
  cases h with
  | unchanged => exact ⟨s.chan c, .inl rfl⟩
  | transfer huses => cases huses
  | channel => exact ⟨_, .inr rfl⟩

/-- Settles O19: of the effects an instruction can have, only the one of `CH.WR` is on the channels. -/
theorem onlyChannelWriteChangesAChannel : Obligations.OnlyChannelWriteChangesAChannel := by
  constructor
  · intro i s t hi hexec
    obtain ⟨m, rs, heffect, rfl⟩ := exec_cases hexec
    exact heffect.ch_eq hi
  · intro c f v s t hexec
    obtain ⟨m, rs, heffect, rfl⟩ := exec_cases hexec
    obtain ⟨x, hch | hch⟩ := heffect.ch_of_chWr
    · exact ⟨congrArg List.length hch, fun k _ => congrArg (·[k]?) hch⟩
    · refine ⟨(congrArg List.length hch).trans List.length_set, fun k hk => (congrArg (·[k]?) hch).trans ?_⟩
      exact List.getElem?_set_ne hk.symm

/-! ### The bytes of the scaler's commands -/

theorem beBytes_word16 (v : BitVec 16) : beBytes 2 v.toNat = [v.extractLsb' 8 8, v.extractLsb' 0 8] := by
  rw [beBytes_succ_toNat, beBytes_succ_toNat]
  rfl

theorem beBytes_word24 (v : BitVec 24) :
    beBytes 3 v.toNat = [v.extractLsb' 16 8, v.extractLsb' 8 8, v.extractLsb' 0 8] := by
  rw [beBytes_succ_toNat, beBytes_succ_toNat, beBytes_succ_toNat]
  rfl

theorem decode_chWr (c f : Byte) (v : BitVec 16) :
    decode [0x30#8, c, f, v.extractLsb' 8 8, v.extractLsb' 0 8] = .instr (.chWr c f v) := by
  rw [← beBytes_word16]
  exact decodeReadsEncodedCommand Config.default (.chWr c f v) rfl rfl

theorem decode_scConv (c : Byte) (image : BitVec 24) :
    decode [0x34#8, c, image.extractLsb' 16 8, image.extractLsb' 8 8, image.extractLsb' 0 8] =
      .instr (.scConv c image) := by
  rw [← beBytes_word24]
  exact decodeReadsEncodedCommand Config.default (.scConv c image) rfl rfl

/-! ### The numbers of the channel fields -/

theorem ChField.number_le (φ : ChField) : φ.number.toNat ≤ 8 := by
  cases φ <;> decide

theorem ChField.exists_number_eq {f : Byte} (h : f.toNat ≤ 8) : ∃ φ : ChField, f = φ.number := by
  have hf : f = BitVec.ofNat 8 f.toNat := by rw [BitVec.ofNat_toNat, BitVec.setWidth_eq]
  generalize f.toNat = n at h hf
  subst hf
  match n with
  | 0 => exact ⟨.fast, rfl⟩
  | 1 => exact ⟨.range, rfl⟩
  | 2 => exact ⟨.override, rfl⟩
  | 3 => exact ⟨.rfb, rfl⟩
  | 4 => exact ⟨.gainP, rfl⟩
  | 5 => exact ⟨.gainN, rfl⟩
  | 6 => exact ⟨.goff, rfl⟩
  | 7 => exact ⟨.gpol, rfl⟩
  | 8 => exact ⟨.valid, rfl⟩

theorem ChField.number_of_ofByte {f : Byte} {φ : ChField} (h : ChField.ofByte f = some φ) : f = φ.number := by
  unfold ChField.ofByte at h
  split at h
  case h_10 => cases h
  all_goals
    next hf =>
      cases h
      exact BitVec.eq_of_toNat_eq hf

/-- The numbers above 8 name no field (R106). -/
theorem ChField.ofByte_eq_none {f : Byte} (h : 9 ≤ f.toNat) : ChField.ofByte f = none := by
  cases hφ : ChField.ofByte f with
  | none => rfl
  | some φ =>
    have hle := φ.number_le
    rw [← ChField.number_of_ofByte hφ] at hle
    omega

/-- The fields that can be written are those up to number 7 (R21, R22). -/
theorem ChField.number_le_seven_iff {φ : ChField} : φ.number.toNat ≤ 7 ↔ φ ≠ .valid := by
  cases φ <;> decide

/-- The legal values are those of R21, and `SC_VALID` takes none (R106). -/
theorem legalValue_iff {c : Config} {φ : ChField} {v : BitVec 16} :
    legalValue c φ v = true ↔ φ.number.toNat ≤ 7 ∧ legal c φ.number.toNat v.toNat := by
  cases φ with
  | range =>
    simp only [legalValue, Bool.or_eq_true, decide_eq_true_eq]
    simp [legal, ChField.number, Config.nRanges]
  | fast | override | rfb | gainP | gainN | goff | gpol | valid => simp [legalValue, legal, ChField.number]

theorem fieldValue_number (x : Channel) (φ : ChField) : fieldValue x φ.number.toNat = x.getField φ := by
  cases φ with
  | valid => cases hd : x.derived <;> simp [fieldValue, ChField.number, Channel.getField, Channel.scValid, hd]
  | fast | range | override | rfb | gainP | gainN | goff | gpol => rfl

/-- What R106 makes of a channel is what the model's write makes of it. -/
theorem channelWritten_number (c : Config) (x : Channel) {φ : ChField} (h : φ ≠ .valid) (v : BitVec 16) :
    channelWritten c x φ.number.toNat v = x.write c φ v := by
  cases φ with
  | valid => exact absurd rfl h
  | fast | range | override | rfb | gainP | gainN | goff | gpol => rfl

/-! ### What a field holds after a write -/

/-- A value that fits a field of `k` bits is zero-extended back to itself. -/
theorem setWidth_setWidth_of_lt {v : BitVec 16} {k : Nat} (h : v.toNat < 2 ^ k) : (v.setWidth k).setWidth 16 = v := by
  apply BitVec.eq_of_toNat_eq
  rw [BitVec.toNat_setWidth, BitVec.toNat_setWidth, Nat.mod_eq_of_lt h, Nat.mod_eq_of_lt v.isLt]

/-- A legal value fits the width of its field (R21). -/
theorem Channel.getField_setField {c : Config} (hwf : c.wf = true) (x : Channel) {φ : ChField} {v : BitVec 16}
    (h : legalValue c φ v = true) : (x.setField v φ).getField φ = v := by
  cases φ with
  | fast | override | gpol => exact setWidth_setWidth_of_lt (Nat.lt_succ_of_le (of_decide_eq_true h))
  | gainP | gainN => exact setWidth_setWidth_of_lt (Nat.lt_succ_of_le (of_decide_eq_true h))
  | range => exact setWidth_setWidth_of_lt (range_toNat_of_legalValue hwf h ▸ (v.setWidth 8).isLt)
  | rfb | goff => rfl
  | valid => cases h

/-- The recomputation leaves the input fields (R114). -/
theorem Channel.getField_write (c : Config) (x : Channel) {φ : ChField} (hφ : φ ≠ .valid) (v : BitVec 16) :
    (x.write c φ v).getField φ = (x.setField v φ).getField φ := by
  cases φ with
  | valid => exact absurd rfl hφ
  | fast | range | override | rfb | gainP | gainN | goff | gpol => rfl

/-! ### The instructions on a channel that does not exist -/

/-- The channel that an instruction of the scaler names. -/
def scalerChannel : Instr → Option Byte
  | .chWr c _ _ | .chRd c _ | .scScale c | .scOffset c | .scConv c _ => some c
  | .crcInit _ | .crcCalc _ _ | .xferWr _ _ | .xferRd _ _ | .regWr _ _ | .regRd _ | .csrWr _ _ | .csrRd _ | .wireWr _
  | .wireRd _ => none

/-- The first check of each instruction of the scaler is that its channel exists (R138). -/
theorem exec_of_no_channel {i : Instr} {s : State} {c : Byte} (hi : scalerChannel i = some c)
    (hc : s.cfg.nCh ≤ c.toNat) : exec i s = refusedWith s .invalidArgument := by
  have hchan : s.noChan c = true := decide_eq_true hc
  cases i with
  | chWr _ f v => cases hi; exact if_pos hchan
  | chRd _ f => cases hi; exact if_pos hchan
  | scScale => cases hi; exact if_pos hchan
  | scOffset => cases hi; exact if_pos hchan
  | scConv _ image => cases hi; exact if_pos hchan
  | crcInit | crcCalc | xferWr | xferRd | regWr | regRd | csrWr | csrRd | wireWr | wireRd => cases hi

/-! ### The instructions on a channel that exists -/

theorem State.chan_of_getElem? {s : State} {c : Byte} {x : Channel} (h : s.ch[c.toNat]? = some x) : s.chan c = x := by
  rw [State.chan, List.getD_eq_getElem?_getD, h, Option.getD_some]

theorem State.noChan_of_lt {s : State} {c : Byte} (h : c.toNat < s.cfg.nCh) : ¬ s.noChan c = true := by
  simpa [State.noChan] using h

/-- Millivolts and millionths of a code (R120). -/
def millivolts (c : Config) (code : BitVec 16) (d : Derived) : Int × Int :=
  (Int.tdiv (convertCode c d code) c.micro, Int.tmod (convertCode c d code) c.micro)

section channel

variable {s : State} {c : Byte} {x : Channel} (hc : c.toNat < s.cfg.nCh) (hx : s.ch[c.toNat]? = some x)
include hc hx

theorem exec_chRd_of_channel (φ : ChField) :
    exec (.chRd c φ.number) s = answeredWith s (beBytes 2 (x.getField φ).toNat) := by
  change execChRd c φ.number s = _
  rw [execChRd, if_neg (State.noChan_of_lt hc), ChField.ofByte_number, State.chan_of_getElem? hx]
  rfl

theorem exec_scScale_of_channel :
    exec (.scScale c) s = .next (s.finish (readPair x.derived fun d => (d.scaleInt, d.scaleFrac))) := by
  change execScScale c s = _
  rw [execScScale, if_neg (State.noChan_of_lt hc), State.chan_of_getElem? hx]

theorem exec_scOffset_of_channel :
    exec (.scOffset c) s = .next (s.finish (readPair x.derived fun d => (d.offsetInt, d.offsetFrac))) := by
  change execScOffset c s = _
  rw [execScOffset, if_neg (State.noChan_of_lt hc), State.chan_of_getElem? hx]

theorem exec_scConv_of_wide_image {image : BitVec 24} (hfast : x.fast = 1#1) (himage : 0x010000 ≤ image.toNat) :
    exec (.scConv c image) s = refusedWith s .invalidArgument := by
  change execScConv c image s = _
  rw [execScConv, if_neg (State.noChan_of_lt hc), State.chan_of_getElem? hx, if_pos ⟨hfast, himage⟩]
  rfl

theorem exec_scConv_of_channel {image : BitVec 24} (h : x.fast = 0#1 ∨ image.toNat < 0x010000) :
    exec (.scConv c image) s =
      .next (s.finish (readPair x.derived (millivolts s.cfg (codeOfImage s.cfg x image)))) := by
  have hfits : ¬ (x.fast = 1#1 ∧ 0x010000 ≤ image.toNat) := by
    rintro ⟨hfast, himage⟩
    exact h.elim (fun hslow => absurd (hslow.symm.trans hfast) (by decide)) (not_lt.mpr himage)
  change execScConv c image s = _
  rw [execScConv, if_neg (State.noChan_of_lt hc), State.chan_of_getElem? hx, if_neg hfits]
  rfl

end channel

theorem finish_readPair_some (s : State) (d : Derived) (f : Derived → Int × Int) :
    .next (s.finish (readPair (some d) f)) = answeredWith s (beSigned 8 (f d).1 ++ beSigned 4 (f d).2) := rfl

theorem finish_readPair_none (s : State) (f : Derived → Int × Int) :
    .next (s.finish (readPair none f)) = refusedWith s .notReady := rfl

/-- Settles O49: the read-out of the derived pair. -/
theorem scaleReadOut : Obligations.ScaleReadOut := by
  intro c s
  refine ⟨decode_eq_instr_iff.mpr ⟨.scScale, _, rfl, rfl⟩, ?valid, ?invalid, exec_of_no_channel rfl⟩
  case valid =>
    intro x d hc hx hd
    rw [exec_scScale_of_channel hc hx, hd, finish_readPair_some]
  case invalid =>
    intro x hc hx hd
    rw [exec_scScale_of_channel hc hx, hd, finish_readPair_none]

/-- Settles O50: the read-out of the derived pair. -/
theorem offsetReadOut : Obligations.OffsetReadOut := by
  intro c s
  refine ⟨decode_eq_instr_iff.mpr ⟨.scOffset, _, rfl, rfl⟩, ?valid, ?invalid, exec_of_no_channel rfl⟩
  case valid =>
    intro x d hc hx hd
    rw [exec_scOffset_of_channel hc hx, hd, finish_readPair_some]
  case invalid =>
    intro x hc hx hd
    rw [exec_scOffset_of_channel hc hx, hd, finish_readPair_none]

/-! ### The conversion -/

theorem codeOfImage_fast (c : Config) {x : Channel} (h : x.fast = 1#1) (image : BitVec 24) :
    codeOfImage c x image = image.extractLsb' 0 16 &&& c.dac16Mask := by
  rw [codeOfImage, if_pos h, BitVec.setWidth_eq_extractLsb' (by decide)]

theorem codeOfImage_precise (c : Config) {x : Channel} (h : x.fast = 0#1) (image : BitVec 24) :
    codeOfImage c x image = image.extractLsb' 8 16 := by
  rw [codeOfImage, h, if_neg (by decide)]

/-- Settles O51: the code of the image, converted by the channel's numbers. -/
theorem conversionResult : Obligations.ConversionResult := by
  intro c image s
  refine ⟨decode_scConv c image, ?valid, ?invalid, ?wide, exec_of_no_channel rfl⟩
  case valid =>
    intro x d hc hx himage hd D S O m
    have hcode : D = ((codeOfImage s.cfg x image).toNat : Int) := by
      obtain hfast | hfast := BitVec.eq_zero_or_eq_one x.fast
      · rw [codeOfImage_precise _ hfast]
        exact if_neg (by rw [hfast]; decide)
      · rw [codeOfImage_fast _ hfast]
        exact if_pos hfast
    have hm : m = convertCode s.cfg d (codeOfImage s.cfg x image) := by
      rw [convertCode, ← hcode]
    rw [exec_scConv_of_channel hc hx himage, hd, finish_readPair_some, hm]
    rfl
  case invalid =>
    intro x hc hx himage hd
    rw [exec_scConv_of_channel hc hx himage, hd, finish_readPair_none]
  case wide => exact fun x hc hx => exec_scConv_of_wide_image hc hx

/-- Settles O52: the conversion looks at the code only, and the images have the same. -/
theorem ignoredImageBits : Obligations.IgnoredImageBits := by
  rintro c a b s x hx hc (⟨hslow, hcode⟩ | ⟨hfast, ha, hb, hcode⟩)
  · rw [exec_scConv_of_channel hc hx (.inl hslow), exec_scConv_of_channel hc hx (.inl hslow),
      codeOfImage_precise _ hslow, codeOfImage_precise _ hslow, hcode]
  · rw [exec_scConv_of_channel hc hx (.inr ha), exec_scConv_of_channel hc hx (.inr hb),
      codeOfImage_fast _ hfast, codeOfImage_fast _ hfast, hcode]

/-! ### Reading and writing a field -/

/-- Settles O47: the number picks the field. -/
theorem channelReadResult : Obligations.ChannelReadResult := by
  intro c f s
  refine ⟨decode_eq_instr_iff.mpr ⟨.chRd, _, rfl, rfl⟩, ?answered, ?refused⟩
  case answered =>
    intro x hc hf hx
    obtain ⟨φ, rfl⟩ := ChField.exists_number_eq hf
    rw [exec_chRd_of_channel hc hx, fieldValue_number, beBytes_word16]
  case refused =>
    rintro (hc | hf)
    · exact exec_of_no_channel rfl hc
    · change execChRd c f s = _
      simp only [execChRd, ChField.ofByte_eq_none hf, ite_self]
      rfl

/-- A field that does not take the value refuses it, whether the channel exists or not (R106). -/
theorem exec_chWr_of_not_legal {c f : Byte} {v : BitVec 16} {s : State}
    (h : ∀ φ, ChField.ofByte f = some φ → ¬ legalValue s.cfg φ v = true) :
    exec (.chWr c f v) s = refusedWith s .invalidArgument := by
  change execChWr c f v s = _
  cases hφ : ChField.ofByte f with
  | none =>
    simp only [execChWr, hφ, ite_self]
    rfl
  | some φ =>
    simp only [execChWr, hφ, if_neg (h φ hφ), ite_self]
    rfl

/-- Settles O46: the number picks the field, and the write of a legal value is the one of R106. -/
theorem channelWriteResult : Obligations.ChannelWriteResult := by
  intro c f v s
  refine ⟨decode_chWr c f v, ?accepted, ?refused⟩
  case accepted =>
    intro x hc hf hlegal hx
    obtain ⟨φ, rfl⟩ := ChField.exists_number_eq (by omega : f.toNat ≤ 8)
    rw [exec_chWr_of_legal hc hx (legalValue_iff.mpr ⟨hf, hlegal⟩),
      channelWritten_number _ _ (ChField.number_le_seven_iff.mp hf)]
    rfl
  case refused =>
    intro h
    by_cases hc : s.cfg.nCh ≤ c.toNat
    · exact exec_of_no_channel rfl hc
    · refine exec_chWr_of_not_legal fun φ hφ hvalue => ?_
      obtain ⟨hf, hlegal⟩ := legalValue_iff.mp hvalue
      rw [← ChField.number_of_ofByte hφ] at hf hlegal
      exact h.elim hc fun h => h.elim (by omega) (absurd hlegal)

/-- What a later command finds after a write of a legal value: the channel named is the written one (R106). -/
theorem exists_exec_chWr {s : State} {c : Byte} {x : Channel} {φ : ChField} {v : BitVec 16} (hc : c.toNat < s.cfg.nCh)
    (hx : s.ch[c.toNat]? = some x) (hlegal : legalValue s.cfg φ v = true) :
    ∃ t, exec (.chWr c φ.number v) s = .next t ∧ t.responses = s.responses ++ [⟨.ok, []⟩] ∧ t.cfg = s.cfg ∧
      t.ch[c.toNat]? = some (x.write s.cfg φ v) := by
  obtain ⟨hlt, _⟩ := List.getElem?_eq_some_iff.mp hx
  exact ⟨_, exec_chWr_of_legal hc hx hlegal, rfl, rfl, List.getElem?_set_self hlt⟩

/-- Settles O48: the channel read is the one written, whose field holds the value. -/
theorem channelFieldReadsBack : Obligations.ChannelFieldReadsBack := by
  intro c f v s hwf hc hlen hf hlegal
  obtain ⟨φ, rfl⟩ := ChField.exists_number_eq (by omega : f.toNat ≤ 8)
  have hx := List.getElem?_eq_getElem (hlen ▸ hc : c.toNat < s.ch.length)
  have hvalue := legalValue_iff.mpr ⟨hf, hlegal⟩
  obtain ⟨t, hexec, _, hcfg, hy⟩ := exists_exec_chWr hc hx hvalue
  refine ⟨t, hexec, ?_⟩
  rw [exec_chRd_of_channel (hcfg ▸ hc) hy, Channel.getField_write _ _ (ChField.number_le_seven_iff.mp hf),
    Channel.getField_setField hwf _ hvalue, beBytes_word16]

/-! ### The override without a feedback resistance -/

/-- With no feedback resistance the custom range is the reference voltage alone, a span of 0 (R111, R113). -/
theorem span_customRange_of_rfb_zero (c : Config) {x : Channel} (h : x.rfb = 0) : Range.span (customRange c x) = 0 := by
  simp [Range.span, customRange, h]

theorem deriveChannel_of_rfb_zero (c : Config) {x : Channel} (hoverride : x.override = 1#1) (hrfb : x.rfb = 0) :
    deriveChannel c x = none := by
  rw [deriveChannel_of_range (rangeOf_eq_some_iff.mpr (.inl ⟨hoverride, rfl⟩)), span_customRange_of_rfb_zero c hrfb,
    if_pos le_rfl]

/-- Writing `OVERRIDE` recomputes the channel (R115), here to no result. -/
theorem derived_write_override_of_rfb_zero (c : Config) {x : Channel} (h : x.rfb = 0) :
    (x.write c .override 1#16).derived = none :=
  deriveChannel_of_rfb_zero (x := x.setField 1#16 .override) c rfl h

theorem Channel.getField_valid_of_no_result {x : Channel} (h : x.derived = none) : x.getField .valid = 0#16 := by
  simp [Channel.getField, Channel.scValid, h]

/-- Settles O59: the accepted write leaves the channel without numbers, and the read-outs answer so. -/
theorem overrideWithoutResistanceInvalidates : Obligations.OverrideWithoutResistanceInvalidates := by
  intro c s x image hc hx hrfb himage
  obtain ⟨t, hexec, hresponses, hcfg, hy⟩ := exists_exec_chWr (φ := .override) (v := 1#16) hc hx rfl
  have hc' : c.toNat < t.cfg.nCh := hcfg ▸ hc
  have hnone := derived_write_override_of_rfb_zero s.cfg hrfb
  refine ⟨t, hexec, hresponses, ?valid, ?scale, ?offset, ?conversion⟩
  case valid =>
    have hread := exec_chRd_of_channel hc' hy .valid
    rw [Channel.getField_valid_of_no_result hnone] at hread
    exact hread
  case scale => rw [exec_scScale_of_channel hc' hy, hnone, finish_readPair_none]
  case offset => rw [exec_scOffset_of_channel hc' hy, hnone, finish_readPair_none]
  case conversion => rw [exec_scConv_of_channel hc' hy himage, hnone, finish_readPair_none]

end Sys2Proof.Machine
end

section
/-! SUPPORT. The statements of the family 60_exceptions (spec/60_exceptions.md): the ways a command can end (R131), and
what a command that fails leaves behind (R139). -/

namespace Sys2Proof.Machine

open Sys2Proof.Spec

/-! ### The ways a command can end -/

/-- How the command `i`, given in `s`, can end: in the state `m`, with `e`. It delivers data; or it is refused with the
state as it was; or it is a CRC-secured transfer aborted on the bus (R84). The two failures carry a status of R131, and
`NotReady` is no refusal of a transfer with CRC off (R66). -/
inductive CommandEnd (s : State) (i : Instr) : State → Ending → Prop where
  | delivered (m : State) (data : List Byte) : CommandEnd s i m (.ok data)
  | refused {st : Status} (hlisted : st ∈ statuses i) (hbad : st ≠ .badMessage)
      (hplain : usesBus i = true → s.crcEn = false → st ≠ .notReady) : CommandEnd s i s (.raise st)
  | aborted {m : State} (hlisted : .badMessage ∈ statuses i) (hcrc : s.crcEn = true) (hbus : BusOnly s m)
      (hquiet : s.Quiet → m.Quiet) : CommandEnd s i m (.raise .badMessage)

/-- The outcome is the next state of a command that ended in one of the ways of `CommandEnd`. -/
def Ends (s : State) (i : Instr) (o : Outcome) : Prop := ∃ m e, o = .next (m.finish e) ∧ CommandEnd s i m e

theorem CommandEnd.ends {s m : State} {i : Instr} {e : Ending} (h : CommandEnd s i m e) :
    Ends s i (.next (m.finish e)) :=
  ⟨m, e, rfl, h⟩

theorem Ends.delivered (s m : State) (i : Instr) (data : List Byte) : Ends s i (.next (m.respond .ok data)) :=
  (CommandEnd.delivered m data).ends

/-- An operand check fails (R138). -/
theorem Ends.invalid (s : State) (i : Instr) (hlisted : .invalidArgument ∈ statuses i := by simp [statuses]) :
    Ends s i (.next (s.raise .invalidArgument)) :=
  (CommandEnd.refused hlisted (by decide) fun _ _ => by decide).ends

/-- A command off the bus reads a value that may not be there yet (R133). -/
theorem Ends.answer {s : State} {i : Instr} {e : Ending} (hi : usesBus i = false)
    (he : ∀ st, e = .raise st → st = .notReady)
    (hlisted : .notReady ∈ statuses i := by simp [statuses]) : Ends s i (.next (s.finish e)) := by
  cases e with
  | ok data => exact Ends.delivered s s i data
  | raise st =>
    obtain rfl := he st rfl
    exact (CommandEnd.refused hlisted (by decide) fun huses => by simp [hi] at huses).ends

/-! ### The values that may not be there yet -/

theorem readPair_raise {d : Option Derived} {f : Derived → Int × Int} (st : Status) (h : readPair d f = .raise st) :
    st = .notReady := by
  cases d with
  | none => exact (Ending.raise.inj h).symm
  | some x => cases h

theorem State.csrValue_raise {s : State} {r : Csr} (st : Status) (h : s.csrValue r = .raise st) : st = .notReady := by
  cases r with
  | polyr =>
    simp only [State.csrValue] at h
    split at h
    · exact (Ending.raise.inj h).symm
    · cases h
  | ctrl | spicfg | streamlen | status => cases h

/-! ### The transfers -/

theorem statuses_of_transfer {i : Instr} (hi : i.isCommand = true) (huses : usesBus i = true) :
    statuses i = [.ok, .invalidArgument, .notReady, .badMessage] := by
  cases i with
  | xferWr | xferRd | regWr | regRd => rfl
  | wireWr | wireRd => cases hi
  | crcInit | crcCalc | csrWr | csrRd | chWr | chRd | scScale | scOffset | scConv => cases huses

/-- What the laws `State.memWrite_spec` and `State.memRead_spec` say of a transfer, as an end of the command. -/
theorem CommandEnd.of_transfer {s m : State} {i : Instr} {e : Ending} (hi : i.isCommand = true)
    (huses : usesBus i = true)
    (h : ((e = .raise .invalidArgument ∨ e = .raise .notReady ∧ s.crcEn = true) ∧ m = s) ∨
      (((∃ bytes, e = .ok bytes) ∨ e = .raise .badMessage ∧ s.crcEn = true) ∧ BusOnly s m ∧
        (s.csActive = false → m.csActive = false))) : CommandEnd s i m e := by
  have hlist := statuses_of_transfer hi huses
  obtain ⟨rfl | ⟨rfl, hcrc⟩, rfl⟩ | ⟨⟨bytes, rfl⟩ | ⟨rfl, hcrc⟩, hbus, hquiet⟩ := h
  · exact .refused (by simp [hlist]) (by decide) fun _ _ => by decide
  · exact .refused (by simp [hlist]) (by decide) fun _ hoff => by simp [hcrc] at hoff
  · exact .delivered m bytes
  · exact .aborted (by simp [hlist]) hcrc hbus hquiet

theorem CommandEnd.memWrite (s : State) {i : Instr} (hi : i.isCommand = true) (huses : usesBus i = true) (addr : Byte)
    (data : List Byte) : CommandEnd s i (s.memWrite addr data).2 (s.memWrite addr data).1 :=
  .of_transfer hi huses ((s.memWrite_spec addr data).imp_right (And.imp_left (Or.imp_left fun hok => ⟨[], hok⟩)))

theorem CommandEnd.memRead (s : State) {i : Instr} (hi : i.isCommand = true) (huses : usesBus i = true) (addr : Byte)
    (n : Nat) : CommandEnd s i (s.memRead addr n).2 (s.memRead addr n).1 :=
  .of_transfer hi huses (s.memRead_spec addr n)

/-- `REG.RD` masks the data of its transfer and passes a failure on (R88). -/
theorem CommandEnd.regReadEnding {s m : State} {i : Instr} {e : Ending} (h : CommandEnd s i m e) (c : Config)
    (w : Nat) : CommandEnd s i m (regReadEnding c w e) := by
  cases h with
  | delivered _ bytes => exact .delivered m _
  | refused hlisted hbad hplain => exact .refused hlisted hbad hplain
  | aborted hlisted hcrc hbus hquiet => exact .aborted hlisted hcrc hbus hquiet

/-! ### Every command ends in one of these ways -/

theorem execCrcCalc_ends (seed : Byte) (data : List Byte) (s : State) :
    Ends s (.crcCalc seed data) (execCrcCalc seed data s) := by
  refine Ends.answer rfl fun st hraise => ?_
  split at hraise
  · exact (Ending.raise.inj hraise).symm
  · cases hraise

theorem execRegWr_ends (addr : Byte) (value : BitVec 24) (s : State) :
    Ends s (.regWr addr value) (execRegWr addr value s) := by
  unfold execRegWr
  split
  · exact Ends.invalid s _
  · exact (CommandEnd.memWrite s rfl rfl addr _).ends

theorem execRegRd_ends (addr : Byte) (s : State) : Ends s (.regRd addr) (execRegRd addr s) := by
  unfold execRegRd
  split
  · exact Ends.invalid s _
  · exact ((CommandEnd.memRead s rfl rfl addr _).regReadEnding _ _).ends

theorem execCsrWr_ends (csr value : Byte) (s : State) : Ends s (.csrWr csr value) (execCsrWr csr value s) := by
  unfold execCsrWr
  split
  · exact Ends.invalid s _
  · split
    · exact Ends.invalid s _
    · exact Ends.delivered s _ _ []

theorem execCsrRd_ends (csr : Byte) (s : State) : Ends s (.csrRd csr) (execCsrRd csr s) := by
  unfold execCsrRd
  split
  · exact Ends.invalid s _
  · exact Ends.answer rfl State.csrValue_raise

theorem execChWr_ends (ch field : Byte) (value : BitVec 16) (s : State) :
    Ends s (.chWr ch field value) (execChWr ch field value s) := by
  unfold execChWr
  split
  · exact Ends.invalid s _
  · split
    · exact Ends.invalid s _
    · split
      · exact Ends.delivered s _ _ []
      · exact Ends.invalid s _

theorem execChRd_ends (ch field : Byte) (s : State) : Ends s (.chRd ch field) (execChRd ch field s) := by
  unfold execChRd
  split
  · exact Ends.invalid s _
  · split
    · exact Ends.invalid s _
    · exact Ends.delivered s s _ _

theorem execScScale_ends (ch : Byte) (s : State) : Ends s (.scScale ch) (execScScale ch s) := by
  unfold execScScale
  split
  · exact Ends.invalid s _
  · exact Ends.answer rfl readPair_raise

theorem execScOffset_ends (ch : Byte) (s : State) : Ends s (.scOffset ch) (execScOffset ch s) := by
  unfold execScOffset
  split
  · exact Ends.invalid s _
  · exact Ends.answer rfl readPair_raise

theorem execScConv_ends (ch : Byte) (image : BitVec 24) (s : State) :
    Ends s (.scConv ch image) (execScConv ch image s) := by
  unfold execScConv
  split
  · exact Ends.invalid s _
  · split
    · exact Ends.invalid s _
    · exact Ends.answer rfl readPair_raise

theorem exec_ends (i : Instr) (s : State) (hi : i.isCommand = true) : Ends s i (exec i s) := by
  cases i with
  | crcInit poly => exact Ends.delivered s { s with crc := some ⟨poly, tblgen poly⟩ } _ []
  | crcCalc seed data => exact execCrcCalc_ends seed data s
  | xferWr addr data => exact (CommandEnd.memWrite s rfl rfl addr data).ends
  | xferRd addr n => exact (CommandEnd.memRead s rfl rfl addr n.toNat).ends
  | regWr addr value => exact execRegWr_ends addr value s
  | regRd addr => exact execRegRd_ends addr s
  | csrWr csr value => exact execCsrWr_ends csr value s
  | csrRd csr => exact execCsrRd_ends csr s
  | chWr ch field value => exact execChWr_ends ch field value s
  | chRd ch field => exact execChRd_ends ch field s
  | scScale ch => exact execScScale_ends ch s
  | scOffset ch => exact execScOffset_ends ch s
  | scConv ch image => exact execScConv_ends ch image s
  | wireWr | wireRd => cases hi

/-- The one response of a command is that of the way it ended. -/
theorem exec_end_cases {i : Instr} {s t : State} {r : Response} (hi : i.isCommand = true) (hexec : exec i s = .next t)
    (hresponses : t.responses = s.responses ++ [r]) :
    ∃ m e, CommandEnd s i m e ∧ t = m.finish e ∧ r = e.response := by
  obtain ⟨m, e, hfinish, hend⟩ := exec_ends i s hi
  obtain rfl := Host.Outcome.next.inj (hexec.symm.trans hfinish)
  rw [State.finish_responses] at hresponses
  exact ⟨m, e, hend, rfl, (List.singleton_inj.mp (List.append_inj_right' hresponses rfl)).symm⟩

/-! ### What a failing command leaves behind, and its status -/

/-- A response is no part of the block. -/
theorem BusOnly.sameBlock_raise {s m : State} (h : BusOnly s m) (st : Status) : SameBlock s (m.raise st) := by
  obtain ⟨hcrc, hcrcEn, haddrAsc, hsingle, hkeep, hlen, hch, hcfg, hinputs⟩ := h.sameBlock
  exact ⟨hcrc, hcrcEn, haddrAsc, hsingle, hkeep, hlen, hch, hcfg, hinputs⟩

/-- Settles O15: a failure is a refusal, which only adds the response, or an abort, which touches the bus side only. -/
theorem failingCommandIsPrecise : Obligations.FailingCommandIsPrecise := by
  intro i s t r hi hexec hresponses hfails
  obtain ⟨m, e, hend, rfl, rfl⟩ := exec_end_cases hi hexec hresponses
  cases hend with
  | delivered => exact absurd rfl hfails
  | refused => exact ⟨rfl, (BusOnly.refl s).sameBlock_raise _, id, fun _ => rfl⟩
  | aborted _ _ hbus hquiet => exact ⟨rfl, hbus.sameBlock_raise _, hquiet, fun hbad => absurd rfl hbad⟩

theorem ok_mem_statuses {i : Instr} (hi : i.isCommand = true) : .ok ∈ statuses i := by
  cases i with
  | wireWr | wireRd => cases hi
  | _ => exact List.mem_cons_self

/-- Settles O16: the lists of R131 hold `OK` and every failure, and an abort needs CRC on. -/
theorem statusesOfEachCommand : Obligations.StatusesOfEachCommand := by
  intro i s t r hi hexec hresponses
  obtain ⟨m, e, hend, rfl, rfl⟩ := exec_end_cases hi hexec hresponses
  cases hend with
  | delivered => exact ⟨ok_mem_statuses hi, fun _ _ => ⟨nofun, nofun⟩⟩
  | refused hlisted hbad hplain => exact ⟨hlisted, fun huses hoff => ⟨hplain huses hoff, hbad⟩⟩
  | aborted hlisted hcrc => exact ⟨hlisted, fun _ hoff => by simp [hcrc] at hoff⟩

end Sys2Proof.Machine
end

section
/-! SUPPORT. The statement of the family 70_reset_and_hazards (spec/70_reset_and_hazards.md R145, R146): a reset given
next. -/

namespace Sys2Proof.Machine

open Sys2Proof.Spec

/-- A reset at the head of the host's list is taken from it, and resets the block (R145). -/
theorem step_of_reset {s : State} {rest : List Input} (hin : s.inputs = .reset :: rest) :
    step s = .next { s with inputs := rest }.applyReset := by
  simp only [step, hin, State.takeInput_of_inputs hin]

/-- Settles O9: the block's part of the next state is the one R26 gives for the same parameters
(`stateAfterReset`); a reset leaves what is outside the block. -/
theorem resetStepPutsResetValues : Obligations.ResetStepPutsResetValues := by
  intro s rest hin
  obtain ⟨hcrc, _, hcrcEn, haddrAsc, hsingle, hkeep, hlen, hcs, _, hcfg, hcount, hchannels, _⟩ :=
    stateAfterReset s.cfg
  exact ⟨_, step_of_reset hin, hcrc, hcrcEn, haddrAsc, hsingle, hkeep, hlen, hcs, hcount, hchannels, hcfg,
    State.applyReset_bus _, State.applyReset_devRx _, State.applyReset_responses _, State.applyReset_inputs _⟩

end Sys2Proof.Machine
end
